-- ==== Sys2Proof/Word.lean ====
section
/-! DEFINITION. The word type of the machine. Registers, memory cells, opcode bytes and operand bytes are
all one unsigned byte (R7 `WORD`, R9, R10). -/

namespace Sys2Proof

/-- `WORD`: 8 bits, unsigned, 0..255 (R7, R10). Bit 0 is the least significant (R9). -/
abbrev Byte := BitVec 8

end Sys2Proof
end

