-- ==== Sys2Proof/Config.lean ====
section
/-! DEFINITION. The implementation parameters of R7, and the parameters the spec leaves OPEN (R8, D13, D19). -/

namespace Sys2Proof.Config

/-- `NREGS` (R7, R22). -/
abbrev numRegs : Nat := 8

/-- `MEMSIZE` (R7, R50). -/
abbrev memSize : Nat := 256

/-- `SP_INDEX` (R7, R23). -/
abbrev spIndex : Fin numRegs := 7

/-- `SP_RESET` (R7, R39). -/
abbrev spReset : Byte := 0xF4

/-- The top of the pc's range, 0..258 (R7, R28, D4). -/
abbrev pcMax : Nat := 258

/-- `LOAD_BASE` (R7, R180, R181): the first address of the image, and the reset pc. -/
abbrev loadBase : Nat := 0

/-- The six opcode bytes the source leaves out, `OP_PUSH` to `OP_JNE`, as named parameters (R8, D13).
The machine's own assignment is `Sys2Proof.defaultOpcodes`; the condition of R8 is `OpcodeMap.Legal`. -/
structure OpcodeMap where
  opPush : Byte
  opPop  : Byte
  opCmp  : Byte
  opJmp  : Byte
  opJeq  : Byte
  opJne  : Byte
deriving DecidableEq, Repr

/-- The default of the OPEN parameter `EXIT_FAULT` (R176, D19). -/
abbrev exitFaultDefault : Nat := 1

end Sys2Proof.Config
end

