-- ==== Sys2Proof/Syntax.lean ====
section
/-! DEFINITION. The instruction set as syntax: the ten opcodes, the four formats and the instructions with
their operand bytes. An operand byte is kept whole, as R72 has it: a register byte of 8..255 is a
legal thing to decode, and the handler raises RegisterIndexFault when it uses it (R78). -/

namespace Sys2Proof

/-- The ten instruction kinds the dispatcher answers with (R45, R74, R100). -/
inductive Opcode where
  | ldi | prn | hlt | mul | push | pop | cmp | jmp | jeq | jne
deriving DecidableEq, Repr

/-- The four instruction formats (R71). -/
inductive Format where
  /-- Opcode alone, length 1. -/
  | n
  /-- Opcode and one register byte, length 2. -/
  | r
  /-- Opcode and two register bytes, length 3. -/
  | rr
  /-- Opcode, a register byte and an immediate byte, length 3. -/
  | ri
deriving DecidableEq, Repr

/-- One constructor per row of the opcode table, with its operand bytes in the table's order. -/
inductive Instr where
  /-- LDI r, imm (R110). -/
  | ldi (r imm : Byte)
  /-- PRN r (R111). -/
  | prn (r : Byte)
  /-- HLT (R113). -/
  | hlt
  /-- MUL a, b (R127). -/
  | mul (a b : Byte)
  /-- PUSH r (R141). -/
  | push (r : Byte)
  /-- POP r (R142). -/
  | pop (r : Byte)
  /-- CMP a, b (R128). -/
  | cmp (a b : Byte)
  /-- JMP r (R151). -/
  | jmp (r : Byte)
  /-- JEQ r (R152). -/
  | jeq (r : Byte)
  /-- JNE r (R153). -/
  | jne (r : Byte)
deriving DecidableEq, Repr

end Sys2Proof
end

