-- ==== Sys2Proof/WellFormed.lean ====
section
/-! DEFINITION. When an instruction is encoded well (R72, R78): every register operand byte is 0..7. An immediate
is always well formed. -/

namespace Sys2Proof

/-- A register operand byte names a register (R72: "Legal values are 0..7"). -/
abbrev legalIndex (b : Byte) : Prop := b.toNat < Config.numRegs

/-- The condition R78 denies of a badly encoded instruction. -/
def Instr.wellFormed : Instr → Bool
  | .ldi r _ => decide (legalIndex r)
  | .prn r => decide (legalIndex r)
  | .hlt => true
  | .mul a b => decide (legalIndex a) && decide (legalIndex b)
  | .push r => decide (legalIndex r)
  | .pop r => decide (legalIndex r)
  | .cmp a b => decide (legalIndex a) && decide (legalIndex b)
  | .jmp r => decide (legalIndex r)
  | .jeq r => decide (legalIndex r)
  | .jne r => decide (legalIndex r)

end Sys2Proof
end

