-- ==== Sys2Proof/Decode.lean ====
section
/-! DEFINITION. The instruction dispatcher (R45, R74, R75, R100), the decoder of a byte list, total and
refusing by name, and after it the encoder. Everything is written over any assignment of the six
parameter bytes (R8); `decode` and `encode` take the defaults. -/

namespace Sys2Proof

open Sys2Proof.Config

/-! ## The opcode map -/

/-- The defaults of R7 and R74 for the six bytes the source does not give.
PRESUMED (log entry 1): the LS-8 values, unsafe. -/
def defaultOpcodes : OpcodeMap :=
  { opPush := 0x45, opPop := 0x46, opCmp := 0xA7, opJmp := 0x54, opJeq := 0x55, opJne := 0x56 }

/-- The opcode byte column of R74. -/
def opcodeByte (m : OpcodeMap) : Opcode → Byte
  | .ldi => 0x82
  | .prn => 0x47
  | .hlt => 0x01
  | .mul => 0xA2
  | .push => m.opPush
  | .pop => m.opPop
  | .cmp => m.opCmp
  | .jmp => m.opJmp
  | .jeq => m.opJeq
  | .jne => m.opJne

/-- The ten rows of R74, in its order. -/
def allOpcodes : List Opcode :=
  [.ldi, .prn, .hlt, .mul, .push, .pop, .cmp, .jmp, .jeq, .jne]

/-- R8: the six parameters are distinct bytes, different from the four the source gives. -/
abbrev Config.OpcodeMap.Legal (m : OpcodeMap) : Prop :=
  (allOpcodes.map (opcodeByte m)).Nodup

/-- The format column of R74. -/
def Opcode.format : Opcode → Format
  | .ldi => .ri
  | .prn => .r
  | .hlt => .n
  | .mul => .rr
  | .push => .r
  | .pop => .r
  | .cmp => .rr
  | .jmp => .r
  | .jeq => .r
  | .jne => .r

/-- The length column of R71. -/
def Format.length : Format → Nat
  | .n => 1
  | .r => 2
  | .rr => 3
  | .ri => 3

/-- An instruction's length in bytes, a function of its opcode alone (R75, R79). -/
def Opcode.length (k : Opcode) : Nat := k.format.length

/-- The dispatcher (R45, R92): the whole byte is matched against the ten entries; `none` is `unknown`. -/
def dispatch (m : OpcodeMap) (b : Byte) : Option Opcode :=
  allOpcodes.find? fun k => opcodeByte m k == b

/-! ## Decoding -/

/-- The instruction an opcode makes of its fetched operand bytes; a format that has fewer operands leaves
the rest unread (R71, R94). -/
def Opcode.instr (k : Opcode) (op1 op2 : Byte) : Instr :=
  match k with
  | .ldi => .ldi op1 op2
  | .prn => .prn op1
  | .hlt => .hlt
  | .mul => .mul op1 op2
  | .push => .push op1
  | .pop => .pop op1
  | .cmp => .cmp op1 op2
  | .jmp => .jmp op1
  | .jeq => .jeq op1
  | .jne => .jne op1

/-- Why a byte list is no instruction. -/
inductive DecodeError where
  /-- There is no opcode byte. -/
  | noOpcode
  /-- The opcode byte has no entry in the table (R77). -/
  | unknownOpcode (b : Byte)
  /-- Operand byte `k` (1 or 2) is missing (R70). -/
  | missingOperand (k : Nat)
deriving DecidableEq, Repr

/-- The operands of opcode `k` from the bytes after it (R70, R71). -/
def takeOperands (k : Opcode) (rest : List Byte) : Except DecodeError (Instr × List Byte) :=
  match k.format, rest with
  | .n, rest => .ok (k.instr 0 0, rest)
  | .r, op1 :: rest => .ok (k.instr op1 0, rest)
  | .rr, op1 :: op2 :: rest => .ok (k.instr op1 op2, rest)
  | .ri, op1 :: op2 :: rest => .ok (k.instr op1 op2, rest)
  | .r, [] => .error (.missingOperand 1)
  | .rr, [] => .error (.missingOperand 1)
  | .ri, [] => .error (.missingOperand 1)
  | .rr, [_] => .error (.missingOperand 2)
  | .ri, [_] => .error (.missingOperand 2)

/-- The first instruction of a byte list, and the bytes after it (R70, R75). -/
def decodeWith (m : OpcodeMap) : List Byte → Except DecodeError (Instr × List Byte)
  | [] => .error .noOpcode
  | opc :: rest =>
    match dispatch m opc with
    | none => .error (.unknownOpcode opc)
    | some k => takeOperands k rest

/-- The machine's decoder. -/
def decode : List Byte → Except DecodeError (Instr × List Byte) := decodeWith defaultOpcodes

/-! ## Encoding -/

/-- The opcode of an instruction. -/
def Instr.opcode : Instr → Opcode
  | .ldi _ _ => .ldi
  | .prn _ => .prn
  | .hlt => .hlt
  | .mul _ _ => .mul
  | .push _ => .push
  | .pop _ => .pop
  | .cmp _ _ => .cmp
  | .jmp _ => .jmp
  | .jeq _ => .jeq
  | .jne _ => .jne

/-- The operand bytes of an instruction, in the order of R71. -/
def Instr.operands : Instr → List Byte
  | .ldi r imm => [r, imm]
  | .prn r => [r]
  | .hlt => []
  | .mul a b => [a, b]
  | .push r => [r]
  | .pop r => [r]
  | .cmp a b => [a, b]
  | .jmp r => [r]
  | .jeq r => [r]
  | .jne r => [r]

/-- The bytes of an instruction, at consecutive increasing addresses, opcode first (R54, R70, R71). -/
def encodeWith (m : OpcodeMap) (i : Instr) : List Byte := opcodeByte m i.opcode :: i.operands

/-- The machine's encoder. -/
def encode : Instr → List Byte := encodeWith defaultOpcodes

/-! ## The opcode table's numbering -/

/-- The longest instruction, in bytes (R70). -/
def maxLength : Nat := 3

/-- The bytes of an instruction given as one number whose bit 0 is the least significant bit of the first
byte, `nbits` of it given and every later bit 0, up to the longest instruction. -/
def tableBytes (nbits w : Nat) : List Byte :=
  (List.range maxLength).map fun k => BitVec.ofNat 8 (w % 2 ^ nbits / 256 ^ k)

/-- What the decoder reads from a word numbered as spec/opcode_table.json numbers it. -/
def decodeTableWord (nbits w : Nat) : Option Instr :=
  match decode (tableBytes nbits w) with
  | .ok (i, _) => some i
  | .error _ => none

end Sys2Proof
end

