-- ==== Sys2Proof/Machine/State.lean ====
section
/-! DEFINITION. The machine's state (R20), the run status and fault causes (R33, R161), the comparison flag
(R30), the two kinds of stop a step can end in, and the state after reset (R39). -/

namespace Sys2Proof.Machine

open Sys2Proof.Config

/-- Memory (R50): the cells that hold something else than the value an unlisted cell reads as, by rising address.
The canonical form is `Memory.wf`. -/
abbrev Memory := List Host.Cell

/-- The comparison flag register's four values (R30, D26). -/
inductive Flag where
  /-- No comparison yet. -/
  | unset
  | equal
  | greater
  | less
deriving DecidableEq, Repr

/-- The fault causes of R161. A cause is recorded in `status`; the machine's step still answers a next
state (R163). -/
inductive FaultCause where
  /-- Code 1: the fetched byte has no entry in the dispatch table (R92). -/
  | unknownOpcode
  /-- Code 2: a fetch above address 255 (R51). -/
  | memoryBounds
  /-- Code 3: a register operand byte above 7 (R24, R25). -/
  | registerIndex
  /-- Code 4: an ALU operation outside the four (R125). The operation is a closed enumeration here, so
  nothing raises it (D15). -/
  | unsupportedAluOperation
deriving DecidableEq, Repr

/-- A fault as a line of a step raises it: its cause and its `info` (R11, R163). -/
structure Raise where
  cause : FaultCause
  info  : Nat
deriving DecidableEq, Repr

/-- The run status (R33). `fpc` is the pc of the faulting instruction, `info` the offending byte or address. -/
inductive Status where
  | running
  | halted
  | faulted (cause : FaultCause) (fpc info : Nat)
deriving DecidableEq, Repr

/-- The whole state, R20's tuple: `mem`, `x` (here `regs`), `pc`, `FL`, `status`, `out`.
The pc is a natural number, which never wraps (R28); its range 0..258 is part of the invariant.
`out` is oldest first. -/
structure State where
  mem    : Memory
  regs   : Vector Byte numRegs
  pc     : Nat
  fl     : Flag
  status : Status
  out    : List Byte
deriving DecidableEq, Repr

/-- What a step answers when there is no step to take. Both are raised by `step` alone and are safe: the
machine stops where the block has no step (R96, D28; log entry 2). A fault of R161 is never one of these: it is
recorded in `status` by a next state. -/
inductive Fault where
  /-- `status` is Halted (R96). Safe. -/
  | haltedHasNoStep
  /-- `status` is Faulted (R96). Safe. -/
  | faultedHasNoStep
deriving DecidableEq, Repr

/-- Why the model gives an instruction no meaning. -/
inductive Refusal where
  /-- The instruction's arm has no meaning yet. Safe. No arm answers so: every instruction has its meaning. -/
  | notModelled (mnemonic : String)
deriving DecidableEq, Repr

/-- The state after `reset` with an empty image (R39, R180): registers R0 to R6 zero (D5), SP 0xF4, pc 0 (R181),
FL Unset, Running, no output, every memory cell 0x00 (D6). `resetWith` gives the one with an image. -/
def State.reset : State :=
  { mem := []
    regs := #v[0x00, 0x00, 0x00, 0x00, 0x00, 0x00, 0x00, spReset]
    pc := loadBase
    fl := .unset
    status := .running
    out := [] }

end Sys2Proof.Machine
end

