-- ==== Sys2Proof/Machine/Ops.lean ====
section
/-! DEFINITION. The primitives the pseudocode of the rules is written in (R10, R11): truncation, memory,
the program counter, the output trace, halting, taking a fault. A line that can raise answers in
`Except Raise`; `State.finish` turns a handler's answer into the step's outcome, discarding every write
of a handler that raised (R12, R163). -/

namespace Sys2Proof.Machine

open Sys2Proof.Config

/-- `trunc8(v) = v mod 256`, the mathematical modulo (R10, D1). -/
def trunc8 (v : Int) : Byte := BitVec.ofInt 8 v

/-! ## Memory (R50 to R52) -/

/-- What a cell that is not listed reads as: the reset value of memory beyond the image (R39, D6). -/
def Memory.unlisted : Byte := 0x00

/-- The canonical form: addresses strictly rise, each is below 256 (R50), and no listed value is the one an
unlisted cell reads as. -/
abbrev Memory.wf (m : Memory) : Prop :=
  m.Pairwise (fun c d => c.1 < d.1) ∧ ∀ c ∈ m, c.1 < memSize ∧ c.2 ≠ Memory.unlisted

/-- `mem[addr]`, with no bound checked. -/
def Memory.read (m : Memory) (addr : Nat) : Byte :=
  match m.find? (fun c => c.1 == addr) with
  | some c => c.2
  | none => Memory.unlisted

/-- Put a cell before the first one of a higher address. -/
def Memory.insert (addr : Nat) (v : Byte) : Memory → Memory
  | [] => [(addr, v)]
  | c :: m => if addr < c.1 then (addr, v) :: c :: m else c :: Memory.insert addr v m

/-- `mem[addr] := v`, with no bound checked; the canonical form is kept. -/
def Memory.write (m : Memory) (addr : Nat) (v : Byte) : Memory :=
  let cleared := m.filter (fun c => c.1 != addr)
  if v = Memory.unlisted then cleared else Memory.insert addr v cleared

/-- Write a list of bytes at consecutive increasing addresses. -/
def Memory.place (m : Memory) (addr : Nat) : List Byte → Memory
  | [] => m
  | b :: bs => Memory.place (m.write addr b) (addr + 1) bs

/-- `MemRead(addr, 1)` (R51). -/
def State.memRead (s : State) (addr : Nat) : Except Raise Byte :=
  if addr < memSize then .ok (s.mem.read addr) else .error ⟨.memoryBounds, addr⟩

/-- `MemWrite(addr, 1, v)` (R52); the stored value is truncated. -/
def State.memWrite (s : State) (addr : Nat) (v : Int) : Except Raise State :=
  if addr < memSize then .ok { s with mem := s.mem.write addr (trunc8 v) }
  else .error ⟨.memoryBounds, addr⟩

/-! ## Program counter, output, halting (R29, R42, R112, R113) -/

/-- `pc <- pc + n`; it never wraps (R28). -/
def State.advance (s : State) (n : Nat) : State := { s with pc := s.pc + n }

/-- `pc <- target`, a byte of a register (R150). -/
def State.jumpTo (s : State) (target : Byte) : State := { s with pc := target.toNat }

/-- `emit(v)` (R112). -/
def State.emit (s : State) (v : Byte) : State := { s with out := s.out ++ [v] }

/-- `halt` (R113): only the status is written, so the pc stays at the HLT (D8). -/
def State.halt (s : State) : State := { s with status := .halted }

/-! ## Taking a fault (R163)

There is no return from a fault (R164). -/

/-- Fault entry (R163): the status records the cause, the pc of the step and the info; nothing else changes. -/
def State.takeFault (s : State) (e : Raise) : State :=
  { s with status := .faulted e.cause s.pc e.info }

/-- The outcome of a handler run from `s`: its writes, or the fault it raised taken in `s` itself (R12, R95). -/
def State.finish (s : State) : Except Raise State → Host.Outcome State Fault Refusal
  | .ok t => .next t
  | .error e => .next (s.takeFault e)

/-- Run the handler of a fetched instruction, or take the fault its fetch raised (R94, R95). -/
def State.runFetched (s : State) (f : Except Raise Instr)
    (handler : Instr → Host.Outcome State Fault Refusal) : Host.Outcome State Fault Refusal :=
  match f with
  | .ok i => handler i
  | .error e => .next (s.takeFault e)

/-- A step is taken only while the status is Running (R95, R96, D28; log entry 2). -/
def State.whenRunning (s : State) (step : Host.Outcome State Fault Refusal) :
    Host.Outcome State Fault Refusal :=
  match s.status with
  | .running => step
  | .halted => .fault .haltedHasNoStep
  | .faulted _ _ _ => .fault .faultedHasNoStep

/-! ## Codes (R161, D27) -/

/-- The code of a fault cause. -/
def FaultCause.code : FaultCause → Nat
  | .unknownOpcode => 1
  | .memoryBounds => 2
  | .registerIndex => 3
  | .unsupportedAluOperation => 4

/-- The code of a run status. -/
def Status.code : Status → Nat
  | .running => 0
  | .halted => 1
  | .faulted _ _ _ => 2

end Sys2Proof.Machine
end

