-- ==== Sys2Proof/Machine/Operands.lean ====
section
/-! DEFINITION. The two operand kinds (R72), and the register file's read and write ports (R24, R25, R41). No
other operand form exists (R73). -/

namespace Sys2Proof.Machine

open Sys2Proof.Config

/-- The register a whole operand byte names; a byte above 7 raises, and is never masked (R72, D3). -/
def registerOperand (b : Byte) : Except Raise (Fin numRegs) :=
  if h : b.toNat < numRegs then .ok ⟨b.toNat, h⟩ else .error ⟨.registerIndex, b.toNat⟩

/-- An immediate operand byte is used as it is: an unsigned value, not extended or scaled (R72). -/
def immediateOperand (b : Byte) : Int := b.toNat

/-- `x[i]` (R24). -/
def State.readReg (s : State) (b : Byte) : Except Raise Byte := do
  let i ← registerOperand b
  return s.regs[i]

/-- `x[i] <- v`, truncated (R25). -/
def State.writeReg (s : State) (b : Byte) (v : Int) : Except Raise State := do
  let i ← registerOperand b
  return { s with regs := s.regs.set i (trunc8 v) }

/-- `x[7]`, the stack pointer, which PUSH and POP read implicitly (R23). -/
def State.sp (s : State) : Byte := s.regs[spIndex]

/-- `x[7] <- v`, truncated: SP arithmetic wraps (R143, D24). -/
def State.writeSp (s : State) (v : Int) : State := { s with regs := s.regs.set spIndex (trunc8 v) }

end Sys2Proof.Machine
end

