-- ==== Sys2Proof/Machine/Flags.lean ====
section
/-! DEFINITION. The comparison flag register: its byte encoding (R30), the comparison that sets it (R124),
and the decisions that read it (R152, R153, R154). -/

namespace Sys2Proof.Machine

/-- The flag as a byte (R30). -/
def Flag.byte : Flag → Byte
  | .unset => 0b000
  | .equal => 0b001
  | .greater => 0b010
  | .less => 0b100

/-- The comparison of two unsigned bytes, `a` against `b` (R124, D12). -/
def compareFlag (a b : Byte) : Flag :=
  if a.toNat = b.toNat then .equal else if a.toNat > b.toNat then .greater else .less

/-- Does JEQ jump (R152)? -/
def Flag.jeqTaken (f : Flag) : Bool := decide (f = .equal)

/-- Does JNE jump (R153)? An Unset flag is not EQUAL, so it does (R154). -/
def Flag.jneTaken (f : Flag) : Bool := decide (f ≠ .equal)

end Sys2Proof.Machine
end

