-- ==== Sys2Proof/Machine/Alu.lean ====
section
/-! DEFINITION. The ALU sub-block (R43, R120 to R126) and the two instructions that drive it, MUL and CMP
(R127 to R129). ADD and SUB are ALU operations that no opcode selects (R80, R129). -/

namespace Sys2Proof.Machine

/-- The four ALU operations, a closed enumeration (R120, D15). -/
inductive AluOp where
  | add | sub | mul | cmp
deriving DecidableEq, Repr

/-- What the ALU puts out: a result byte, or a comparison flag (R43, R120). -/
inductive AluOut where
  | result (v : Byte)
  | flag (f : Flag)
deriving DecidableEq, Repr

/-- `alu(op, a, b)` (R120): exact arithmetic on the operands' values, then truncation (R121 to R124, D1). -/
def alu (op : AluOp) (a b : Byte) : AluOut :=
  match op with
  | .add => .result (trunc8 ((a.toNat : Int) + b.toNat))
  | .sub => .result (trunc8 ((a.toNat : Int) - b.toNat))
  | .mul => .result (trunc8 ((a.toNat : Int) * b.toNat))
  | .cmp => .flag (compareFlag a b)

/-- Where the ALU's output goes: a result to `x[reg_a]`, a flag to `FL` (R120). -/
def State.writeAlu (s : State) (a : Byte) : AluOut → Except Raise State
  | .result v => s.writeReg a v.toNat
  | .flag f => .ok { s with fl := f }

/-- The handler of an instruction that drives the ALU: both operands are read before the write (R127, R128). -/
def State.runAlu (s : State) (op : AluOp) (a b : Byte) : Except Raise State := do
  let va ← s.readReg a
  let vb ← s.readReg b
  let s ← s.writeAlu a (alu op va vb)
  return s.advance 3

/-- MUL (R127). -/
def execMul (a b : Byte) (s : State) : Host.Outcome State Fault Refusal :=
  s.finish (s.runAlu .mul a b)

/-- CMP (R128). -/
def execCmp (a b : Byte) (s : State) : Host.Outcome State Fault Refusal :=
  s.finish (s.runAlu .cmp a b)

end Sys2Proof.Machine
end

