-- ==== Sys2Proof/Machine/Basic.lean ====
section
/-! DEFINITION. LDI, PRN and HLT (41_basic.md). -/

namespace Sys2Proof.Machine

/-- LDI (R110). -/
def execLdi (r imm : Byte) (s : State) : Host.Outcome State Fault Refusal :=
  s.finish do
    let s ← s.writeReg r (immediateOperand imm)
    return s.advance 3

/-- PRN (R111). -/
def execPrn (r : Byte) (s : State) : Host.Outcome State Fault Refusal :=
  s.finish do
    let v ← s.readReg r
    return (s.emit v).advance 2

/-- HLT (R113). -/
def execHlt (s : State) : Host.Outcome State Fault Refusal :=
  s.finish (.ok s.halt)

end Sys2Proof.Machine
end

