-- ==== Sys2Proof/Machine/Control.lean ====
section
/-! DEFINITION. JMP, JEQ and JNE (R150 to R154). A target is the byte of a register; a bad register byte
faults whether or not the branch is taken (D11). -/

namespace Sys2Proof.Machine

/-- Jump to the register's byte if `taken`, else go on after the two bytes of the instruction (R152, R153). -/
def State.jumpIf (s : State) (taken : Bool) (r : Byte) : Except Raise State := do
  let t ← s.readReg r
  return if taken then s.jumpTo t else s.advance 2

/-- JMP (R151). -/
def execJmp (r : Byte) (s : State) : Host.Outcome State Fault Refusal :=
  s.finish (s.jumpIf true r)

/-- JEQ (R152). -/
def execJeq (r : Byte) (s : State) : Host.Outcome State Fault Refusal :=
  s.finish (s.jumpIf s.fl.jeqTaken r)

/-- JNE (R153). -/
def execJne (r : Byte) (s : State) : Host.Outcome State Fault Refusal :=
  s.finish (s.jumpIf s.fl.jneTaken r)

end Sys2Proof.Machine
end

