-- ==== Sys2Proof/Machine/Stack.lean ====
section
/-! DEFINITION. PUSH and POP (R140 to R144). The order of the lines is the source's, so PUSH R7 stores the decremented
SP and POP R7 adds one to the popped byte (D25). Nothing checks for a stack collision (R144). -/

namespace Sys2Proof.Machine

/-- PUSH (R141). -/
def execPush (r : Byte) (s : State) : Host.Outcome State Fault Refusal :=
  s.finish do
    let _ ← registerOperand r
    let s := s.writeSp ((s.sp.toNat : Int) - 1)
    let v ← s.readReg r
    let s ← s.memWrite s.sp.toNat v.toNat
    return s.advance 2

/-- POP (R142). -/
def execPop (r : Byte) (s : State) : Host.Outcome State Fault Refusal :=
  s.finish do
    let _ ← registerOperand r
    let v ← s.memRead s.sp.toNat
    let s ← s.writeReg r v.toNat
    let s := s.writeSp ((s.sp.toNat : Int) + 1)
    return s.advance 2

end Sys2Proof.Machine
end

