-- ==== Sys2Proof/Machine/Fetch.lean ====
section
/-! DEFINITION. Fetch and dispatch (R91 to R93), and placing an instruction where the next step fetches it. -/

namespace Sys2Proof.Machine

open Sys2Proof.Config

/-- The first lines of R95: the opcode byte (R91), the dispatch (R92), the operand bytes the length calls for
(R93). Operand addresses are counted from the pc at the start of the step (R99). -/
def State.fetch (m : OpcodeMap) (s : State) : Except Raise Instr := do
  let opc ← s.memRead s.pc
  match dispatch m opc with
  | none => throw ⟨.unknownOpcode, opc.toNat⟩
  | some k =>
    let op1 ← if k.length ≥ 2 then s.memRead (s.pc + 1) else pure 0
    let op2 ← if k.length = 3 then s.memRead (s.pc + 2) else pure 0
    return k.instr op1 op2

/-- The bytes a step can fetch: those at pc, pc+1 and pc+2 that exist (R46, R54). -/
def State.codeBytes (s : State) : List Byte :=
  ((List.range maxLength).map (fun k => s.pc + k)).filter (· < memSize) |>.map s.mem.read

/-- `s`, Running, with the bytes stored at the pc; from address 0 if they would not fit there
(log entry 3: this stands for the host's load of a program). -/
def State.placeAtPc (s : State) (bytes : List Byte) : State :=
  let p := if s.pc + bytes.length ≤ memSize then s.pc else loadBase
  { s with pc := p, status := .running, mem := s.mem.place p bytes }

end Sys2Proof.Machine
end

