-- ==== Sys2Proof/Machine/Step.lean ====
section
/-! DEFINITION. The whole step (R95), for any assignment of the opcode parameters (R8) and for the machine's own. -/

namespace Sys2Proof.Machine

open Sys2Proof.Config

/-- R95 for any opcode assignment: while Running, fetch, dispatch and run the handler, or take the fault. -/
def stepWith (m : OpcodeMap) (s : State) : Host.Outcome State Fault Refusal :=
  s.whenRunning (s.runFetched (s.fetch m) (fun i => exec i s))

/-- The machine's step: R95 with the default opcode bytes (log entry 1). -/
def step : State → Host.Outcome State Fault Refusal := stepWith defaultOpcodes

/-- `s` with the instruction of a table word stored where the next step fetches it (log entry 3). -/
def State.withFetchWord (s : State) (nbits w : Nat) : State := s.placeAtPc (tableBytes nbits w)

end Sys2Proof.Machine
end

