-- ==== Sys2Proof/Machine/Loader.lean ====
section
/-! DEFINITION. The host's contract with the block (R5): reset with an image (R180), the program file's format and
its loader (R82, R183 to R185), the text form of the output (R114) and the exit status (R175, R176). None of it is
reached by a step. -/

namespace Sys2Proof.Machine

open Sys2Proof.Config

/-! ## Reset with an image -/

/-- `reset(image)` (R39, R180); the rule gives no reset for an image over 256 bytes, so `none` there
(log entry 12). -/
def resetWith (image : List Byte) : Option State :=
  if image.length ≤ memSize then
    some { State.reset with mem := State.reset.mem.place loadBase image }
  else none

/-! ## The program file -/

/-- Why the host starts no run (R185). All three are one exit status (R176; log entry 10). -/
inductive LoadError where
  /-- The program file cannot be located. -/
  | fileNotFound
  /-- A kept line is not one or more of `0` and `1` (D18). -/
  | malformedLiteral
  /-- More than 256 lines are kept. -/
  | tooManyLines
deriving DecidableEq, Repr

/-- A file's text as lines. DESIGN CHOICE (log entry 9): a line ends at a line feed. -/
def splitLines : List Char → List (List Char)
  | [] => [[]]
  | c :: cs =>
    if c = '\n' then [] :: splitLines cs
    else
      match splitLines cs with
      | l :: ls => (c :: l) :: ls
      | [] => [[c]]

/-- R184 step 1. -/
def stripComment (line : List Char) : List Char := line.takeWhile (fun c => c != '#')

/-- R184 step 2. DESIGN CHOICE (log entry 9): white space is space, tab, carriage return and line feed. -/
def trimLine (line : List Char) : List Char :=
  ((line.dropWhile Char.isWhitespace).reverse.dropWhile Char.isWhitespace).reverse

/-- The value of a base-2 literal, most significant digit first (R9, R184 step 4); `none` where a character is
neither `0` nor `1`. -/
def binaryValue (digits : List Char) : Option Nat :=
  digits.foldlM (init := 0) fun v c =>
    if c = '0' then some (2 * v) else if c = '1' then some (2 * v + 1) else none

/-- What one line gives (R184): nothing, a byte, or a parse failure. -/
def parseLine (line : List Char) : Except LoadError (Option Byte) :=
  match trimLine (stripComment line) with
  | [] => .ok none
  | c :: cs =>
    match binaryValue (c :: cs) with
    | some v => .ok (some (trunc8 v))
    | none => .error .malformedLiteral

/-- The bytes of the kept lines, in order (R183, R184). -/
def parseLines : List (List Char) → Except LoadError (List Byte)
  | [] => .ok []
  | line :: lines => do
    let b ← parseLine line
    let bs ← parseLines lines
    return match b with
      | some b => b :: bs
      | none => bs

/-- The image of a file's lines, at most 256 of them kept (R185, D18). -/
def loadLines (lines : List (List Char)) : Except LoadError (List Byte) := do
  let image ← parseLines lines
  if image.length ≤ memSize then return image else throw .tooManyLines

/-- The image of a program file; `none` is a file that cannot be located (R185). -/
def loadFile : Option (List Char) → Except LoadError (List Byte)
  | none => .error .fileNotFound
  | some text => loadLines (splitLines text)

/-! ## Output and exit status -/

/-- The decimal digit of a number below ten. -/
def decimalDigit (n : Nat) : Char := Char.ofNat ('0'.toNat + n)

/-- A byte's decimal digits, with no leading zeros (R114). -/
def renderByte (v : Byte) : List Char :=
  let n := v.toNat
  if n < 10 then [decimalDigit n]
  else if n < 100 then [decimalDigit (n / 10), decimalDigit (n % 10)]
  else [decimalDigit (n / 100), decimalDigit (n / 10 % 10), decimalDigit (n % 10)]

/-- The text the host prints of an output trace: each byte in decimal, then a newline (R114). -/
def renderOut (out : List Byte) : List Char := out.flatMap fun v => renderByte v ++ ['\n']

/-- The process exit status (R176), with the OPEN parameter `EXIT_FAULT` as an argument (D19; log entry 11).
A run that is still Running has none. -/
def exitStatus (exitFault : Nat) : Except LoadError Status → Option Nat
  | .error _ => some 2
  | .ok .running => none
  | .ok .halted => some 0
  | .ok (.faulted _ _ _) => some exitFault

end Sys2Proof.Machine
end

