-- ==== Sys2Proof/Machine/Run.lean ====
section
/-! DEFINITION. The loop (R90, R97) under fuel (R98), for any assignment of the opcode parameters (R8) and for the
machine's own. -/

namespace Sys2Proof.Machine

open Sys2Proof.Config

/-- At most `n` steps from `s`; a state with no step stays as it is (R90, R96). -/
def runWith (m : OpcodeMap) : Nat → State → State
  | 0, s => s
  | n + 1, s =>
    match stepWith m s with
    | .next t => runWith m n t
    | .fault _ => s
    | .refused _ => s

/-- The machine's run: the loop of its own `step`. -/
def run : Nat → State → State := runWith defaultOpcodes

end Sys2Proof.Machine
end

