-- ==== Sys2Proof/Safety.lean ====
section
/-! DEFINITION. The terms the statements use: what is unchanged between two states, an instruction's bytes standing
at the pc, the faulted state of a step, and the invariant of R40 with what a final state says of itself (R97). -/

namespace Sys2Proof.Machine

open Sys2Proof.Config

/-- Every byte of memory reads as before. -/
def SameMemory (s t : State) : Prop := ∀ a, t.mem.read a = s.mem.read a

/-- Every byte of memory but the one at `addr` reads as before. -/
def SameMemoryBut (addr : Nat) (s t : State) : Prop := ∀ a, a ≠ addr → t.mem.read a = s.mem.read a

/-- Every register is as before. -/
def SameRegs (s t : State) : Prop := ∀ j : Fin numRegs, t.regs[j] = s.regs[j]

/-- Every register but number `n` is as before. -/
def SameRegsBut (n : Nat) (s t : State) : Prop := ∀ j : Fin numRegs, j.val ≠ n → t.regs[j] = s.regs[j]

/-- The state a step from `s` that raises ends in (R163), written from the rule's words. -/
def faultedAt (s : State) (cause : FaultCause) (info : Nat) : State :=
  { s with status := .faulted cause s.pc info }

/-- The bytes stand at the pc, at existing addresses (R54). -/
def BytesAtPc (s : State) (bytes : List Byte) : Prop :=
  s.pc + bytes.length ≤ memSize ∧ ∀ k (h : k < bytes.length), s.mem.read (s.pc + k) = bytes[k]

/-- Not Running (R33, R96). -/
def State.Final (s : State) : Prop := s.status ≠ .running

/-- What a final state says of the step that ended the run. Halted: the pc is at an HLT (R113). Faulted: `fpc` is the
pc, and the cause and info are those of the bytes there (R161, R163, R165). -/
def StatusExplained (s : State) : Prop :=
  match s.status with
  | .running => True
  | .halted => s.pc < memSize ∧ dispatch defaultOpcodes (s.mem.read s.pc) = some .hlt
  | .faulted cause fpc info =>
    fpc = s.pc ∧
    match cause with
    | .unknownOpcode =>
      s.pc < memSize ∧ dispatch defaultOpcodes (s.mem.read s.pc) = none ∧ info = (s.mem.read s.pc).toNat
    | .memoryBounds =>
      (memSize ≤ s.pc ∧ info = s.pc) ∨
        (s.pc < memSize ∧ info = memSize ∧
          ∃ k, dispatch defaultOpcodes (s.mem.read s.pc) = some k ∧ memSize < s.pc + k.length)
    | .registerIndex =>
      ∃ k, dispatch defaultOpcodes (s.mem.read s.pc) = some k ∧ s.pc + k.length ≤ memSize ∧ numRegs ≤ info ∧
        ((k ≠ .hlt ∧ info = (s.mem.read (s.pc + 1)).toNat) ∨
          (k.format = .rr ∧ legalIndex (s.mem.read (s.pc + 1)) ∧ info = (s.mem.read (s.pc + 2)).toNat))
    | .unsupportedAluOperation => False

/-- The invariant: memory is in its canonical form with cells 0..255 only (R50), the pc is in 0..258 (R28), and a
final status is explained by the bytes at the pc. -/
def Inv (s : State) : Prop := s.mem.wf ∧ s.pc ≤ pcMax ∧ StatusExplained s

end Sys2Proof.Machine
end

