-- ==== Sys2Proof/Certificates/Slice0/Obligations.lean ====
section
/-! DEFINITION. The statements for the provers. Statements about the rules of an instruction are made for every
legal assignment of the six opcode parameters (R8) where the fetch is part of them. -/

open Sys2Proof Sys2Proof.Config Sys2Proof.Machine

/-! ## Encoding -/

/-- Words written out from the encodings of R71 and R74. The last six rest on the default bytes (log entry 1). -/
def Obligations.SpecWordsDecode : Prop :=
  decode [0b10000010, 0b00000000, 0b00001000] = .ok (.ldi 0 8, []) ∧
  decode [0b01000111, 0b00000011] = .ok (.prn 3, []) ∧
  decode [0b00000001] = .ok (.hlt, []) ∧
  decode [0b10100010, 0b00000000, 0b00000001] = .ok (.mul 0 1, []) ∧
  decode [0b01000101, 0b00000110] = .ok (.push 6, []) ∧
  decode [0b01000110, 0b00000101] = .ok (.pop 5, []) ∧
  decode [0b10100111, 0b00000010, 0b00000100] = .ok (.cmp 2 4, []) ∧
  decode [0b01010100, 0b00000010] = .ok (.jmp 2, []) ∧
  decode [0b01010101, 0b00000011] = .ok (.jeq 3, []) ∧
  decode [0b01010110, 0b00000011] = .ok (.jne 3, [])

/-- The default table is legal (R8) and leaves 246 bytes unknown (R77); it rests on the default bytes (log entry 1). -/
def Obligations.DefaultTableLeaves246BytesUnknown : Prop :=
  defaultOpcodes.Legal ∧
  ((List.range 256).filter fun n => (dispatch defaultOpcodes (BitVec.ofNat 8 n)).isNone).length = 246

/-- R75: the whole opcode byte is matched against the ten entries, and the entry gives the instruction and its
length, whatever the operand bytes are. -/
def Obligations.DispatchMatchesWholeOpcodeByte : Prop :=
  ∀ m : OpcodeMap, m.Legal →
    (∀ b k, dispatch m b = some k ↔ opcodeByte m k = b) ∧
    (∀ b, dispatch m b = none ↔ ∀ k, opcodeByte m k ≠ b) ∧
    (∀ k (rest : List Byte), k.length ≤ rest.length + 1 →
      ∃ i, i.opcode = k ∧ decodeWith m (opcodeByte m k :: rest) = .ok (i, rest.drop (k.length - 1)))

/-- Decoding an encoded instruction gives it back, at every value of every operand byte (the ill-formed register
bytes of R78 too), and leaves what follows. -/
def Obligations.DecodeInvertsEncode : Prop :=
  ∀ m : OpcodeMap, m.Legal → ∀ (i : Instr) (rest : List Byte),
    decodeWith m (encodeWith m i ++ rest) = .ok (i, rest)

/-- Whatever decodes is the encoding of what it decodes to: each byte string has one meaning. -/
def Obligations.EncodeInvertsDecode : Prop :=
  ∀ (m : OpcodeMap) (bytes rest : List Byte) (i : Instr),
    decodeWith m bytes = .ok (i, rest) → bytes = encodeWith m i ++ rest

/-! ## Fetch and step -/

/-- When the bytes at the pc decode to an instruction, the step is that instruction's handler (R94, R95): the
handler writes the next pc itself, and the step adds nothing. -/
def Obligations.StepRunsDecodedInstruction : Prop :=
  ∀ (s : State) (i : Instr) (rest : List Byte), s.status = .running →
    decode s.codeBytes = .ok (i, rest) → step s = exec i s

/-- Fetch (R91 to R93) is decoding the bytes that exist at pc, pc+1 and pc+2; a byte that does not exist is the
MemoryBoundsFault of its address. -/
def Obligations.FetchIsDecodeOfCodeBytes : Prop :=
  ∀ (m : OpcodeMap) (s : State),
    s.fetch m = match decodeWith m s.codeBytes with
      | .ok (i, _) => .ok i
      | .error .noOpcode => .error ⟨.memoryBounds, s.pc⟩
      | .error (.unknownOpcode b) => .error ⟨.unknownOpcode, b.toNat⟩
      | .error (.missingOperand k) => .error ⟨.memoryBounds, s.pc + k⟩

/-- R8: the rules hold for any legal assignment of the opcode parameters. -/
def Obligations.StepHoldsForEveryOpcodeAssignment : Prop :=
  ∀ m : OpcodeMap, m.Legal → ∀ (s : State) (i : Instr), s.status = .running →
    BytesAtPc s (encodeWith m i) → stepWith m s = exec i s

/-- R165: the first check in the order decides the fault, and a step that none of them stops does not fault. -/
def Obligations.FirstFailedCheckDecidesTheFault : Prop :=
  ∀ m : OpcodeMap, m.Legal → ∀ s : State, s.status = .running →
    (255 < s.pc → stepWith m s = .next (faultedAt s .memoryBounds s.pc)) ∧
    (s.pc ≤ 255 → dispatch m (s.mem.read s.pc) = none →
      stepWith m s = .next (faultedAt s .unknownOpcode (s.mem.read s.pc).toNat)) ∧
    ∀ k, s.pc ≤ 255 → dispatch m (s.mem.read s.pc) = some k →
      (2 ≤ k.length → 255 < s.pc + 1 → stepWith m s = .next (faultedAt s .memoryBounds (s.pc + 1))) ∧
      (k.length = 3 → s.pc + 1 ≤ 255 → 255 < s.pc + 2 →
        stepWith m s = .next (faultedAt s .memoryBounds (s.pc + 2))) ∧
      (s.pc + k.length ≤ 256 → 2 ≤ k.length → 7 < (s.mem.read (s.pc + 1)).toNat →
        stepWith m s = .next (faultedAt s .registerIndex (s.mem.read (s.pc + 1)).toNat)) ∧
      (s.pc + k.length ≤ 256 → k = .mul ∨ k = .cmp → (s.mem.read (s.pc + 1)).toNat ≤ 7 →
        7 < (s.mem.read (s.pc + 2)).toNat →
        stepWith m s = .next (faultedAt s .registerIndex (s.mem.read (s.pc + 2)).toNat)) ∧
      (s.pc + k.length ≤ 256 → (2 ≤ k.length → (s.mem.read (s.pc + 1)).toNat ≤ 7) →
        (k = .mul ∨ k = .cmp → (s.mem.read (s.pc + 2)).toNat ≤ 7) →
        ∃ t, stepWith m s = .next t ∧ ∀ c f n, t.status ≠ .faulted c f n)

/-- R92 and R77: a byte with no entry raises UnknownOpcode(byte), and only the status changes. -/
def Obligations.UnlistedByteRaisesUnknownOpcode : Prop :=
  ∀ (m : OpcodeMap) (s : State), s.status = .running → s.pc ≤ 255 →
    (∀ k, opcodeByte m k ≠ s.mem.read s.pc) →
    stepWith m s = .next { s with status := .faulted .unknownOpcode s.pc (s.mem.read s.pc).toNat }

/-- R80: the LS-8 bytes of ADD and SUB are unknown opcodes here. It holds of the default table (log entry 1). -/
def Obligations.AddAndSubBytesAreUnknown : Prop :=
  ∀ s : State, s.status = .running → s.pc ≤ 255 → (s.mem.read s.pc = 0xA0 ∨ s.mem.read s.pc = 0xA1) →
    step s = .next (faultedAt s .unknownOpcode (s.mem.read s.pc).toNat)

/-- R96: a state has a step exactly while its status is Running. -/
def Obligations.StepExistsExactlyWhileRunning : Prop :=
  ∀ s : State, (∃ t, step s = .next t) ↔ s.status = .running

/-- The name under which the model answers where there is no step (log entry 2, the model's choice). -/
def Obligations.FinalStatesStopByName : Prop :=
  ∀ s : State,
    (s.status = .halted → step s = .fault .haltedHasNoStep) ∧
    (∀ c f n, s.status = .faulted c f n → step s = .fault .faultedHasNoStep)

/-- R163: a step that raises records the pc it started at and changes nothing else, and the state is terminal. -/
def Obligations.FaultIsPreciseAndTerminal : Prop :=
  ∀ (s t : State) (c : FaultCause) (f n : Nat), step s = .next t → t.status = .faulted c f n →
    f = s.pc ∧ t.mem = s.mem ∧ t.regs = s.regs ∧ t.pc = s.pc ∧ t.fl = s.fl ∧ t.out = s.out ∧
    ∀ u, step t ≠ .next u

/-- A table word placed by `withFetchWord` is what the very next step runs (log entry 3). -/
def Obligations.PlacedWordIsTheNextInstruction : Prop :=
  ∀ (s : State) (nbits w : Nat) (i : Instr), decodeTableWord nbits w = some i →
    step (s.withFetchWord nbits w) = exec i (s.withFetchWord nbits w)

/-! ## The invariant and reset -/

/-- Every step keeps the invariant, from every state that meets it. -/
def Obligations.StepKeepsInvariant : Prop :=
  ∀ s t : State, Inv s → step s = .next t → Inv t

/-- The reset state meets the invariant. -/
def Obligations.ResetMeetsInvariant : Prop := Inv State.reset

/-- Every state of every run, from a reset with any image, meets the invariant (R40, R97). -/
def Obligations.EveryReachableStateMeetsInvariant : Prop :=
  ∀ (image : List Byte) (s0 : State) (n : Nat), resetWith image = some s0 → Inv (run n s0)

/-- R180: what `reset(image)` leaves. R0 to R6, the cells beyond the image and the pc are the spec's decisions
D5, D6, D7. -/
def Obligations.ResetSetsTheWholeState : Prop :=
  ∀ image : List Byte, image.length ≤ 256 →
    ∃ s0, resetWith image = some s0 ∧
      (∀ a, a < 256 → s0.mem.read a = if h : a < image.length then image[a] else 0x00) ∧
      (∀ j : Fin numRegs, j.val ≤ 6 → s0.regs[j] = 0x00) ∧ s0.regs[spIndex] = 0xF4 ∧
      s0.pc = 0 ∧ s0.fl = .unset ∧ s0.status = .running ∧ s0.out = []

/-- The fixed reset state is `reset` with the empty image (log entry 3), and there is no reset with an image over
256 bytes (log entry 12, the model's choice). -/
def Obligations.ResetWithNoImageIsTheResetState : Prop :=
  resetWith [] = some State.reset ∧ ∀ image : List Byte, 256 < image.length → resetWith image = none

/-! ## The instructions -/

/-- LDI (R110): result and frame, bad register byte, encoding, operand bytes out of reach. -/
def Obligations.LdiLoadsItsImmediate : Prop :=
  ∀ (r imm : Byte) (s : State),
    (∀ h : r.toNat < 8, ∃ t, exec (.ldi r imm) s = .next t ∧ t.regs[r.toNat] = imm ∧ SameRegsBut r.toNat s t ∧
      t.pc = s.pc + 3 ∧ SameMemory s t ∧ t.fl = s.fl ∧ t.status = s.status ∧ t.out = s.out) ∧
    (7 < r.toNat → exec (.ldi r imm) s = .next (faultedAt s .registerIndex r.toNat)) ∧
    ∀ m : OpcodeMap, m.Legal →
      encodeWith m (.ldi r imm) = [0x82, r, imm] ∧
      (s.status = .running → s.mem.read s.pc = 0x82 → s.pc = 255 →
        stepWith m s = .next (faultedAt s .memoryBounds (s.pc + 1))) ∧
      (s.status = .running → s.mem.read s.pc = 0x82 → s.pc = 254 →
        stepWith m s = .next (faultedAt s .memoryBounds (s.pc + 2)))

/-- PRN (R111): result and frame, bad register byte, encoding, operand byte out of reach. -/
def Obligations.PrnAppendsTheRegister : Prop :=
  ∀ (r : Byte) (s : State),
    (∀ h : r.toNat < 8, ∃ t, exec (.prn r) s = .next t ∧ t.out = s.out ++ [s.regs[r.toNat]] ∧ SameRegs s t ∧
      t.pc = s.pc + 2 ∧ SameMemory s t ∧ t.fl = s.fl ∧ t.status = s.status) ∧
    (7 < r.toNat → exec (.prn r) s = .next (faultedAt s .registerIndex r.toNat)) ∧
    ∀ m : OpcodeMap, m.Legal →
      encodeWith m (.prn r) = [0x47, r] ∧
      (s.status = .running → s.mem.read s.pc = 0x47 → s.pc = 255 →
        stepWith m s = .next (faultedAt s .memoryBounds (s.pc + 1)))

/-- HLT (R113): result and frame, encoding; it runs even at pc = 255, and no step follows it. -/
def Obligations.HltHaltsInPlace : Prop :=
  ∀ s : State, ∃ t, exec .hlt s = .next t ∧ t.status = .halted ∧ t.pc = s.pc ∧ SameRegs s t ∧ SameMemory s t ∧
    t.fl = s.fl ∧ t.out = s.out ∧
    ∀ m : OpcodeMap, m.Legal →
      encodeWith m .hlt = [0x01] ∧ (∀ u, stepWith m t ≠ .next u) ∧
      (s.status = .running → s.mem.read s.pc = 0x01 → s.pc ≤ 255 → stepWith m s = .next t)

/-- MUL (R123, R127): the low byte of the product of the original values; a = b squares, a = 7 multiplies SP. -/
def Obligations.MulWritesTheLowByteOfTheProduct : Prop :=
  ∀ (a b : Byte) (s : State),
    (∀ (ha : a.toNat < 8) (hb : b.toNat < 8), ∃ t, exec (.mul a b) s = .next t ∧
      (t.regs[a.toNat]).toNat = (s.regs[a.toNat]).toNat * (s.regs[b.toNat]).toNat % 256 ∧
      SameRegsBut a.toNat s t ∧
      t.pc = s.pc + 3 ∧ SameMemory s t ∧ t.fl = s.fl ∧ t.status = s.status ∧ t.out = s.out) ∧
    (7 < a.toNat → exec (.mul a b) s = .next (faultedAt s .registerIndex a.toNat)) ∧
    (a.toNat ≤ 7 → 7 < b.toNat → exec (.mul a b) s = .next (faultedAt s .registerIndex b.toNat)) ∧
    ∀ m : OpcodeMap, m.Legal →
      encodeWith m (.mul a b) = [0xA2, a, b] ∧
      (s.status = .running → s.mem.read s.pc = 0xA2 → s.pc = 255 →
        stepWith m s = .next (faultedAt s .memoryBounds (s.pc + 1))) ∧
      (s.status = .running → s.mem.read s.pc = 0xA2 → s.pc = 254 →
        stepWith m s = .next (faultedAt s .memoryBounds (s.pc + 2)))

/-- CMP (R124, R128): the flag of the unsigned comparison, whatever it was before. -/
def Obligations.CmpSetsTheFlag : Prop :=
  ∀ (a b : Byte) (s : State),
    (∀ (ha : a.toNat < 8) (hb : b.toNat < 8), ∃ t, exec (.cmp a b) s = .next t ∧
      (t.fl = .equal ↔ (s.regs[a.toNat]).toNat = (s.regs[b.toNat]).toNat) ∧
      (t.fl = .greater ↔ (s.regs[b.toNat]).toNat < (s.regs[a.toNat]).toNat) ∧
      (t.fl = .less ↔ (s.regs[a.toNat]).toNat < (s.regs[b.toNat]).toNat) ∧
      t.fl ≠ .unset ∧ SameRegs s t ∧
      t.pc = s.pc + 3 ∧ SameMemory s t ∧ t.status = s.status ∧ t.out = s.out) ∧
    (7 < a.toNat → exec (.cmp a b) s = .next (faultedAt s .registerIndex a.toNat)) ∧
    (a.toNat ≤ 7 → 7 < b.toNat → exec (.cmp a b) s = .next (faultedAt s .registerIndex b.toNat)) ∧
    ∀ m : OpcodeMap, m.Legal →
      encodeWith m (.cmp a b) = [m.opCmp, a, b] ∧
      (s.status = .running → s.mem.read s.pc = m.opCmp → s.pc = 255 →
        stepWith m s = .next (faultedAt s .memoryBounds (s.pc + 1))) ∧
      (s.status = .running → s.mem.read s.pc = m.opCmp → s.pc = 254 →
        stepWith m s = .next (faultedAt s .memoryBounds (s.pc + 2)))

/-- PUSH (R141, R143): the address stored to is the decremented SP; PUSH R7 stores that very value. -/
def Obligations.PushStoresBelowTheStackPointer : Prop :=
  ∀ (r : Byte) (s : State),
    (∀ h : r.toNat < 8, ∃ t, exec (.push r) s = .next t ∧
      t.regs[spIndex] = trunc8 ((s.regs[spIndex].toNat : Int) - 1) ∧ SameRegsBut 7 s t ∧
      t.mem.read (trunc8 ((s.regs[spIndex].toNat : Int) - 1)).toNat =
        (if r.toNat = 7 then trunc8 ((s.regs[spIndex].toNat : Int) - 1) else s.regs[r.toNat]) ∧
      SameMemoryBut (trunc8 ((s.regs[spIndex].toNat : Int) - 1)).toNat s t ∧
      t.pc = s.pc + 2 ∧ t.fl = s.fl ∧ t.status = s.status ∧ t.out = s.out) ∧
    (7 < r.toNat → exec (.push r) s = .next (faultedAt s .registerIndex r.toNat)) ∧
    ∀ m : OpcodeMap, m.Legal →
      encodeWith m (.push r) = [m.opPush, r] ∧
      (s.status = .running → s.mem.read s.pc = m.opPush → s.pc = 255 →
        stepWith m s = .next (faultedAt s .memoryBounds (s.pc + 1)))

/-- POP (R142, R143): the popped byte goes to the register, and then SP, read again, is incremented: POP R7 ends at
the popped byte plus one. The cell read is not changed. -/
def Obligations.PopLoadsFromTheStackPointer : Prop :=
  ∀ (r : Byte) (s : State),
    (∀ h : r.toNat < 8, ∃ t, exec (.pop r) s = .next t ∧
      (r.toNat ≠ 7 → t.regs[r.toNat] = s.mem.read s.regs[spIndex].toNat ∧
        t.regs[spIndex] = trunc8 ((s.regs[spIndex].toNat : Int) + 1)) ∧
      (r.toNat = 7 → t.regs[spIndex] = trunc8 (((s.mem.read s.regs[spIndex].toNat).toNat : Int) + 1)) ∧
      (∀ j : Fin numRegs, j.val ≠ r.toNat → j.val ≠ 7 → t.regs[j] = s.regs[j]) ∧
      t.pc = s.pc + 2 ∧ SameMemory s t ∧ t.fl = s.fl ∧ t.status = s.status ∧ t.out = s.out) ∧
    (7 < r.toNat → exec (.pop r) s = .next (faultedAt s .registerIndex r.toNat)) ∧
    ∀ m : OpcodeMap, m.Legal →
      encodeWith m (.pop r) = [m.opPop, r] ∧
      (s.status = .running → s.mem.read s.pc = m.opPop → s.pc = 255 →
        stepWith m s = .next (faultedAt s .memoryBounds (s.pc + 1)))

/-- JMP (R151): the pc is the register's byte, and only the pc changes. -/
def Obligations.JmpGoesToTheRegister : Prop :=
  ∀ (r : Byte) (s : State),
    (∀ h : r.toNat < 8, ∃ t, exec (.jmp r) s = .next t ∧ t.pc = (s.regs[r.toNat]).toNat ∧
      SameRegs s t ∧ SameMemory s t ∧ t.fl = s.fl ∧ t.status = s.status ∧ t.out = s.out) ∧
    (7 < r.toNat → exec (.jmp r) s = .next (faultedAt s .registerIndex r.toNat)) ∧
    ∀ m : OpcodeMap, m.Legal →
      encodeWith m (.jmp r) = [m.opJmp, r] ∧
      (s.status = .running → s.mem.read s.pc = m.opJmp → s.pc = 255 →
        stepWith m s = .next (faultedAt s .memoryBounds (s.pc + 1)))

/-- JEQ (R152): taken exactly when FL is EQUAL; a bad register byte faults whether or not it is taken. -/
def Obligations.JeqJumpsOnEqual : Prop :=
  ∀ (r : Byte) (s : State),
    (∀ h : r.toNat < 8, ∃ t, exec (.jeq r) s = .next t ∧
      (s.fl = .equal → t.pc = (s.regs[r.toNat]).toNat) ∧ (s.fl ≠ .equal → t.pc = s.pc + 2) ∧
      SameRegs s t ∧ SameMemory s t ∧ t.fl = s.fl ∧ t.status = s.status ∧ t.out = s.out) ∧
    (7 < r.toNat → exec (.jeq r) s = .next (faultedAt s .registerIndex r.toNat)) ∧
    ∀ m : OpcodeMap, m.Legal →
      encodeWith m (.jeq r) = [m.opJeq, r] ∧
      (s.status = .running → s.mem.read s.pc = m.opJeq → s.pc = 255 →
        stepWith m s = .next (faultedAt s .memoryBounds (s.pc + 1)))

/-- JNE (R153): taken exactly when FL is not EQUAL, Unset included. -/
def Obligations.JneJumpsUnlessEqual : Prop :=
  ∀ (r : Byte) (s : State),
    (∀ h : r.toNat < 8, ∃ t, exec (.jne r) s = .next t ∧
      (s.fl ≠ .equal → t.pc = (s.regs[r.toNat]).toNat) ∧ (s.fl = .equal → t.pc = s.pc + 2) ∧
      SameRegs s t ∧ SameMemory s t ∧ t.fl = s.fl ∧ t.status = s.status ∧ t.out = s.out) ∧
    (7 < r.toNat → exec (.jne r) s = .next (faultedAt s .registerIndex r.toNat)) ∧
    ∀ m : OpcodeMap, m.Legal →
      encodeWith m (.jne r) = [m.opJne, r] ∧
      (s.status = .running → s.mem.read s.pc = m.opJne → s.pc = 255 →
        stepWith m s = .next (faultedAt s .memoryBounds (s.pc + 1)))

/-- Every well-formed instruction completes in every state: a next state, Halted for HLT and with the status as it
was for the others. -/
def Obligations.EveryWellFormedInstructionCompletes : Prop :=
  ∀ (i : Instr) (s : State), i.wellFormed = true →
    ∃ t, exec i s = .next t ∧ (i = .hlt → t.status = .halted) ∧ (i ≠ .hlt → t.status = s.status)

/-- R78: the handler raises RegisterIndexFault exactly when a register operand byte is 8..255; no immediate is
ever bad. -/
def Obligations.HandlerFaultsExactlyOnABadRegisterByte : Prop :=
  ∀ (i : Instr) (s : State), s.status = .running →
    ((∃ t c f n, exec i s = .next t ∧ t.status = .faulted c f n) ↔ i.wellFormed = false) ∧
    (∀ t c f n, exec i s = .next t → t.status = .faulted c f n → c = .registerIndex ∧ 8 ≤ n ∧ n ≤ 255) ∧
    (∀ r imm imm', (Instr.ldi r imm).wellFormed = (Instr.ldi r imm').wellFormed)

/-! ## The ALU, the register file and memory -/

/-- R121 to R124: the four ALU operations. -/
def Obligations.AluComputesModulo256 : Prop :=
  ∀ a b : Byte,
    (∃ v, alu .add a b = .result v ∧ v.toNat = (a.toNat + b.toNat) % 256) ∧
    (∃ v, alu .sub a b = .result v ∧ (v.toNat : Int) = ((a.toNat : Int) - b.toNat) % 256) ∧
    (∃ v, alu .mul a b = .result v ∧ v.toNat = a.toNat * b.toNat % 256) ∧
    (∃ f, alu .cmp a b = .flag f ∧ f ≠ .unset ∧ (f = .equal ↔ a.toNat = b.toNat) ∧
      (f = .greater ↔ a.toNat > b.toNat) ∧ (f = .less ↔ a.toNat < b.toNat))

/-- R24 and R25: a register index above 7 raises on a read and on a write; below, a write is read back truncated
and every other register reads as before. -/
def Obligations.RegisterFileReadsBackItsWrites : Prop :=
  ∀ (s : State) (i : Byte) (v : Int),
    (7 < i.toNat → s.readReg i = .error ⟨.registerIndex, i.toNat⟩ ∧
      s.writeReg i v = .error ⟨.registerIndex, i.toNat⟩) ∧
    (∀ h : i.toNat < 8, s.readReg i = .ok s.regs[i.toNat] ∧
      ∃ t, s.writeReg i v = .ok t ∧ (∀ j, t.readReg j = if j = i then .ok (trunc8 v) else s.readReg j) ∧
        t.mem = s.mem ∧ t.pc = s.pc ∧ t.fl = s.fl ∧ t.status = s.status ∧ t.out = s.out)

/-- R51 and R52: an address above 255 raises on a read and on a write; below, a write is read back truncated and
every other cell reads as before. -/
def Obligations.MemoryReadsBackItsWrites : Prop :=
  ∀ (s : State) (a : Nat) (v : Int),
    (255 < a → s.memRead a = .error ⟨.memoryBounds, a⟩ ∧ s.memWrite a v = .error ⟨.memoryBounds, a⟩) ∧
    (a ≤ 255 → s.memRead a = .ok (s.mem.read a) ∧
      ∃ t, s.memWrite a v = .ok t ∧ (∀ b, t.memRead b = if b = a then .ok (trunc8 v) else s.memRead b) ∧
        t.regs = s.regs ∧ t.pc = s.pc ∧ t.fl = s.fl ∧ t.status = s.status ∧ t.out = s.out)

/-- The canonical form is one: memories that read alike at every existing address are the same data. -/
def Obligations.CanonicalMemoriesThatReadAlikeAreEqual : Prop :=
  ∀ m n : Memory, m.wf → n.wf → (∀ a, a < 256 → m.read a = n.read a) → m = n

/-! ## Whole-machine rules -/

/-- R29: the next pc of every instruction, and an unchanged pc where it faults. -/
def Obligations.NextPcOfEachInstruction : Prop :=
  ∀ (i : Instr) (s t : State), exec i s = .next t →
    (i.wellFormed = false → t.pc = s.pc) ∧
    (i.wellFormed = true →
      match i with
      | .ldi _ _ => t.pc = s.pc + 3
      | .mul _ _ => t.pc = s.pc + 3
      | .cmp _ _ => t.pc = s.pc + 3
      | .prn _ => t.pc = s.pc + 2
      | .push _ => t.pc = s.pc + 2
      | .pop _ => t.pc = s.pc + 2
      | .jmp r => s.readReg r = .ok (BitVec.ofNat 8 t.pc) ∧ t.pc ≤ 255
      | .jeq r => if s.fl = .equal then s.readReg r = .ok (BitVec.ofNat 8 t.pc) ∧ t.pc ≤ 255 else t.pc = s.pc + 2
      | .jne r => if s.fl ≠ .equal then s.readReg r = .ok (BitVec.ofNat 8 t.pc) ∧ t.pc ≤ 255 else t.pc = s.pc + 2
      | .hlt => t.pc = s.pc)

/-- R31: CMP alone writes FL, and never to Unset; JEQ and JNE alone read it, and only for EQUAL. -/
def Obligations.FlagIsWrittenByCmpAndReadByJeqJne : Prop :=
  ∀ (i : Instr) (s t : State), exec i s = .next t →
    (i.opcode ≠ .cmp → t.fl = s.fl) ∧
    (i.opcode = .cmp → i.wellFormed = true → t.fl ≠ .unset ∧ ∀ f, exec i { s with fl := f } = .next t) ∧
    (i.opcode ≠ .cmp → i.opcode ≠ .jeq → i.opcode ≠ .jne → ∀ f, exec i { s with fl := f } = .next { t with fl := f }) ∧
    (i.opcode = .jeq ∨ i.opcode = .jne → ∀ f, (f = .equal ↔ s.fl = .equal) →
      exec i { s with fl := f } = .next { t with fl := f })

/-- A step never takes FL back to Unset, and changes it only where a CMP stands at the pc (R31; the default
bytes, log entry 1). -/
def Obligations.StepNeverUnsetsTheFlag : Prop :=
  ∀ s t : State, step s = .next t →
    (s.fl ≠ .unset → t.fl ≠ .unset) ∧
    (t.fl ≠ s.fl → dispatch defaultOpcodes (s.mem.read s.pc) = some .cmp)

/-- R34 and R112: a step leaves the output trace as it is or appends one byte, the latter only where a PRN stands
at the pc; and no step reads the trace. -/
def Obligations.OutputOnlyGrowsAndIsNeverRead : Prop :=
  ∀ s t : State, step s = .next t →
    (t.out = s.out ∨ (dispatch defaultOpcodes (s.mem.read s.pc) = some .prn ∧ ∃ v, t.out = s.out ++ [v])) ∧
    (∀ o, ∃ new, t.out = s.out ++ new ∧ step { s with out := o } = .next { t with out := o ++ new })

/-- R53: only PUSH writes memory, one cell, at the decremented SP; besides fetch, only POP reads it, one cell, at
SP. -/
def Obligations.OnlyPushWritesAndOnlyPopReadsMemory : Prop :=
  ∀ (i : Instr) (s t : State), exec i s = .next t →
    (i.opcode ≠ .push → t.mem = s.mem) ∧
    (i.opcode = .push → SameMemoryBut (trunc8 ((s.regs[spIndex].toNat : Int) - 1)).toNat s t) ∧
    (i.opcode ≠ .push → ∀ m' : Memory,
      (i.opcode = .pop → m'.read s.regs[spIndex].toNat = s.mem.read s.regs[spIndex].toNat) →
      exec i { s with mem := m' } = .next { t with mem := m' }) ∧
    (i.opcode = .push → ∀ m' : Memory, ∃ m'', exec i { s with mem := m' } = .next { t with mem := m'' })

/-- R26: the registers each instruction may write. -/
def Obligations.RegisterWritesOfEachInstruction : Prop :=
  ∀ (i : Instr) (s t : State), exec i s = .next t → ∀ j : Fin numRegs, t.regs[j] ≠ s.regs[j] →
    match i with
    | .ldi r _ => j.val = r.toNat
    | .mul a _ => j.val = a.toNat
    | .push _ => j = spIndex
    | .pop r => j.val = r.toNat ∨ j = spIndex
    | .prn _ => False
    | .hlt => False
    | .cmp _ _ => False
    | .jmp _ => False
    | .jeq _ => False
    | .jne _ => False

/-! ## Two instructions together -/

/-- R145: PUSH then POP on the same register restores every register, SP included, for every register and SP value,
and moves the pc past both. -/
def Obligations.PushThenPopRestoresTheRegisters : Prop :=
  ∀ (r : Byte) (s : State), r.toNat < 8 →
    ∃ t u, exec (.push r) s = .next t ∧ exec (.pop r) t = .next u ∧ SameRegs s u ∧ u.pc = s.pc + 4 ∧
      u.fl = s.fl ∧ u.status = s.status ∧ u.out = s.out

/-- LDI then PRN on the same register emits the immediate, for every byte (R110's property). -/
def Obligations.LdiThenPrnEmitsTheImmediate : Prop :=
  ∀ (r v : Byte) (s : State), r.toNat < 8 →
    ∃ t u, exec (.ldi r v) s = .next t ∧ exec (.prn r) t = .next u ∧ u.out = s.out ++ [v] ∧ u.pc = s.pc + 5

/-- After CMP a,b: JEQ jumps if and only if x[a] = x[b], and JNE if and only if they differ (R152, R153). -/
def Obligations.ConditionalJumpAfterCmp : Prop :=
  ∀ (a b r : Byte) (s : State) (ha : a.toNat < 8) (hb : b.toNat < 8) (hr : r.toNat < 8),
    ∃ t u v, exec (.cmp a b) s = .next t ∧ exec (.jeq r) t = .next u ∧ exec (.jne r) t = .next v ∧
      u.pc = (if s.regs[a.toNat] = s.regs[b.toNat] then (s.regs[r.toNat]).toNat else s.pc + 5) ∧
      v.pc = (if s.regs[a.toNat] = s.regs[b.toNat] then s.pc + 5 else (s.regs[r.toNat]).toNat)

/-- R64 and R188: a byte that a PUSH stores at the next pc is the opcode the next step dispatches, whichever byte it
is and whichever register is pushed (R7 pushes the decremented SP), for every opcode assignment: an unlisted byte
faults, an opcode whose operand bytes exist runs with the operands memory holds after the PUSH, and one whose operand
bytes do not exist faults at address 256. -/
def Obligations.PushedByteIsTheNextOpcode : Prop :=
  ∀ (r : Byte) (s : State) (h : r.toNat < 8), s.status = .running →
    (trunc8 ((s.regs[spIndex].toNat : Int) - 1)).toNat = s.pc + 2 →
    ∃ (t : State) (v : Byte), exec (.push r) s = .next t ∧ t.status = .running ∧ t.pc = s.pc + 2 ∧
      v = (if r.toNat = 7 then trunc8 ((s.regs[spIndex].toNat : Int) - 1) else s.regs[r.toNat]) ∧
      t.mem.read t.pc = v ∧
      ∀ m : OpcodeMap,
        (dispatch m v = none → stepWith m t = .next (faultedAt t .unknownOpcode v.toNat)) ∧
        ∀ k, dispatch m v = some k →
          (t.pc + k.length ≤ 256 →
            stepWith m t = exec (k.instr (t.mem.read (t.pc + 1)) (t.mem.read (t.pc + 2))) t) ∧
          (256 < t.pc + k.length → stepWith m t = .next (faultedAt t .memoryBounds 256))

/-! ## Runs -/

/-- R98: a JMP to its own address steps to the same state, so every run from there, of whatever number of steps, is
still Running and has a next step. It holds for every legal opcode assignment. -/
def Obligations.JumpToItselfNeverEnds : Prop :=
  ∀ m : OpcodeMap, m.Legal → ∀ (s : State) (r : Byte) (h : r.toNat < 8), s.status = .running →
    BytesAtPc s (encodeWith m (.jmp r)) → (s.regs[r.toNat]).toNat = s.pc →
    stepWith m s = .next s ∧
      ∀ n, (runWith m n s).status = .running ∧ stepWith m (runWith m n s) = .next (runWith m (n + 1) s) ∧
        runWith m n s = s

/-- R96 and R97: once a run has reached a final state, more fuel gives the same state. -/
def Obligations.FinalStateIsKept : Prop :=
  ∀ (s : State) (n k : Nat), (run n s).Final → run (n + k) s = run n s

/-- Nothing removes from the output trace (R34), over a whole run. -/
def Obligations.RunOutputIsExtendedByMoreSteps : Prop :=
  ∀ (s : State) (n k : Nat), ∃ later, (run (n + k) s).out = (run n s).out ++ later ∧ later.length ≤ k

/-! ## The host's contract -/

/-- R184's first three steps: comment-only and blank lines make no difference to the image. -/
def Obligations.LoaderSkipsBlankAndCommentLines : Prop :=
  ∀ lines : List (List Char),
    loadLines (lines.filter fun l => !(trimLine (stripComment l)).isEmpty) = loadLines lines

/-- R82 and R184: bytes written as 8-digit base-2 literals, each with any trailing comment, load as those bytes. -/
def Obligations.LoaderReadsBackWrittenBytes : Prop :=
  ∀ image : List (Byte × List Char), image.length ≤ 256 →
    loadLines (image.map fun p =>
      ((List.range 8).map fun k => if p.1.getLsbD (7 - k) then '1' else '0') ++ [' ', '#'] ++ p.2) =
    .ok (image.map Prod.fst)

/-- R185: the three load failures give no image, and the exit status of every load error is 2 (R175, R176). -/
def Obligations.LoadFailuresStartNoRun : Prop :=
  (∃ e, loadFile none = .error e) ∧
  (∀ (exitFault : Nat) (e : LoadError), exitStatus exitFault (.error e) = some 2) ∧
  (∀ lines line c, line ∈ lines → c ∈ trimLine (stripComment line) → c ≠ '0' → c ≠ '1' →
    ∃ e, loadLines lines = .error e) ∧
  (∀ lines : List (List Char), 256 < (lines.filter fun l => !(trimLine (stripComment l)).isEmpty).length →
    ∃ e, loadLines lines = .error e)

/-- R176: the exit status of a run, for any choice of `EXIT_FAULT` the rule allows. -/
def Obligations.ExitStatusTellsTheEndings : Prop :=
  ∀ exitFault : Nat, exitFault ≠ 0 → exitFault ≠ 2 →
    ∀ ending : Except LoadError Status,
      (exitStatus exitFault ending = some 0 ↔ ending = .ok .halted) ∧
      (exitStatus exitFault ending = some 2 ↔ ∃ e, ending = .error e) ∧
      (exitStatus exitFault ending = some exitFault ↔ ∃ c f n, ending = .ok (.faulted c f n))

/-- R114: each byte in decimal, digits only, no leading zero, then one newline. -/
def Obligations.OutputIsPrintedInDecimal : Prop :=
  renderOut [] = [] ∧
  ∀ (v : Byte) (out : List Byte),
    ∃ digits, renderOut (v :: out) = digits ++ '\n' :: renderOut out ∧
      digits ≠ [] ∧ (∀ c ∈ digits, '0' ≤ c ∧ c ≤ '9') ∧ (digits.head? = some '0' → digits = ['0']) ∧
      digits.foldl (fun n c => 10 * n + (c.toNat - '0'.toNat)) 0 = v.toNat
end

