-- ==== Sys2Proof/Laws/State.lean ====
section
/-! SUPPORT. One lemma per field for each update of the state, and the small lemmas of truncation and of the checks in
`Except Raise`. -/

namespace Sys2Proof.Machine

open Sys2Proof.Config

/-! ## Fields after an update -/

section Updates
variable (s : State) (n : Nat) (b : Byte) (v : Int) (e : Raise)

@[simp] theorem advance_mem : (s.advance n).mem = s.mem := rfl
@[simp] theorem advance_regs : (s.advance n).regs = s.regs := rfl
@[simp] theorem advance_pc : (s.advance n).pc = s.pc + n := rfl
@[simp] theorem advance_fl : (s.advance n).fl = s.fl := rfl
@[simp] theorem advance_status : (s.advance n).status = s.status := rfl
@[simp] theorem advance_out : (s.advance n).out = s.out := rfl

@[simp] theorem jumpTo_mem : (s.jumpTo b).mem = s.mem := rfl
@[simp] theorem jumpTo_regs : (s.jumpTo b).regs = s.regs := rfl
@[simp] theorem jumpTo_pc : (s.jumpTo b).pc = b.toNat := rfl
@[simp] theorem jumpTo_fl : (s.jumpTo b).fl = s.fl := rfl
@[simp] theorem jumpTo_status : (s.jumpTo b).status = s.status := rfl
@[simp] theorem jumpTo_out : (s.jumpTo b).out = s.out := rfl

@[simp] theorem emit_mem : (s.emit b).mem = s.mem := rfl
@[simp] theorem emit_regs : (s.emit b).regs = s.regs := rfl
@[simp] theorem emit_pc : (s.emit b).pc = s.pc := rfl
@[simp] theorem emit_fl : (s.emit b).fl = s.fl := rfl
@[simp] theorem emit_status : (s.emit b).status = s.status := rfl
@[simp] theorem emit_out : (s.emit b).out = s.out ++ [b] := rfl

@[simp] theorem halt_mem : s.halt.mem = s.mem := rfl
@[simp] theorem halt_regs : s.halt.regs = s.regs := rfl
@[simp] theorem halt_pc : s.halt.pc = s.pc := rfl
@[simp] theorem halt_fl : s.halt.fl = s.fl := rfl
@[simp] theorem halt_status : s.halt.status = .halted := rfl
@[simp] theorem halt_out : s.halt.out = s.out := rfl

@[simp] theorem takeFault_mem : (s.takeFault e).mem = s.mem := rfl
@[simp] theorem takeFault_regs : (s.takeFault e).regs = s.regs := rfl
@[simp] theorem takeFault_pc : (s.takeFault e).pc = s.pc := rfl
@[simp] theorem takeFault_fl : (s.takeFault e).fl = s.fl := rfl
@[simp] theorem takeFault_status : (s.takeFault e).status = .faulted e.cause s.pc e.info := rfl
@[simp] theorem takeFault_out : (s.takeFault e).out = s.out := rfl

@[simp] theorem writeSp_mem : (s.writeSp v).mem = s.mem := rfl
@[simp] theorem writeSp_regs : (s.writeSp v).regs = s.regs.set spIndex (trunc8 v) := rfl
@[simp] theorem writeSp_pc : (s.writeSp v).pc = s.pc := rfl
@[simp] theorem writeSp_fl : (s.writeSp v).fl = s.fl := rfl
@[simp] theorem writeSp_status : (s.writeSp v).status = s.status := rfl
@[simp] theorem writeSp_out : (s.writeSp v).out = s.out := rfl

theorem sp_eq : s.sp = s.regs[spIndex] := rfl

/-- SP reads back what was written to it. -/
@[simp] theorem writeSp_sp : (s.writeSp v).sp = trunc8 v := by
  simp [State.sp, State.writeSp]

end Updates

/-! ## Truncation -/

/-- Truncating a byte's own value gives the byte. -/
@[simp] theorem trunc8_toNat (b : Byte) : trunc8 (b.toNat : Int) = b := by
  simp [trunc8]

/-- `trunc8` is the mathematical modulo (R10). -/
theorem trunc8_value (v : Int) : ((trunc8 v).toNat : Int) = v % 256 := by
  simp only [trunc8, BitVec.toNat_ofInt]
  omega

/-- Truncating a natural number is the remainder modulo 256. -/
theorem trunc8_natCast_toNat (n : Nat) : (trunc8 (n : Int)).toNat = n % 256 := by
  have := trunc8_value (n : Int)
  omega

/-! ## Handlers and their outcome -/

section Handlers
variable {α β : Type} (a : α) (e : Raise) (f : α → Except Raise β)

@[simp] theorem ok_bind : ((.ok a : Except Raise α) >>= f) = f a := rfl
@[simp] theorem error_bind : ((.error e : Except Raise α) >>= f) = .error e := rfl
@[simp] theorem pure_eq_ok : (pure a : Except Raise α) = .ok a := rfl
@[simp] theorem throw_eq_error : (throw e : Except Raise α) = .error e := rfl

end Handlers

section Outcomes
variable (s t : State) (e : Raise) (i : Instr) (k : Instr → Host.Outcome State Fault Refusal)

@[simp] theorem finish_ok : s.finish (.ok t) = .next t := rfl
@[simp] theorem finish_error : s.finish (.error e) = .next (s.takeFault e) := rfl
@[simp] theorem runFetched_ok : s.runFetched (.ok i) k = k i := rfl
@[simp] theorem runFetched_error : s.runFetched (.error e) k = .next (s.takeFault e) := rfl

/-- A handler's outcome is always a next state. -/
theorem finish_next (r : Except Raise State) : ∃ u, s.finish r = .next u := by
  cases r <;> exact ⟨_, rfl⟩

/-- While Running, the guard lets the step through. -/
theorem whenRunning_running {o : Host.Outcome State Fault Refusal} (h : s.status = .running) :
    s.whenRunning o = o := by
  simp [State.whenRunning, h]

/-- The guard answers a next state only while Running, and then the step's own. -/
theorem whenRunning_next {o : Host.Outcome State Fault Refusal} :
    s.whenRunning o = .next t ↔ s.status = .running ∧ o = .next t := by
  unfold State.whenRunning
  split <;> simp_all

end Outcomes

end Sys2Proof.Machine
end

