-- ==== Sys2Proof/Laws/Memory.lean ====
section
/-! SUPPORT. Memory: reading after a write, the canonical form kept by every operation, and its primitives with their
bound (R50 to R52, R61). -/

namespace Sys2Proof.Machine

open Sys2Proof.Config

/-! ## Reading after a write -/

/-- A list with no entry at an address reads there as an unlisted cell. -/
theorem read_of_unlisted {m : Memory} {a : Nat} (h : ∀ c ∈ m, c.1 ≠ a) : m.read a = Memory.unlisted := by
  have : m.find? (fun c => c.1 == a) = none := by simpa using fun c d hc => h (c, d) hc
  simp [Memory.read, this]

@[simp] theorem read_nil (a : Nat) : Memory.read [] a = Memory.unlisted := rfl

theorem read_cons (c : Host.Cell) (m : Memory) (a : Nat) :
    Memory.read (c :: m) a = if c.1 = a then c.2 else m.read a := by
  by_cases h : c.1 = a <;> simp [Memory.read, h]

/-- Inserting a cell changes the reading of its own address only. -/
theorem read_insert (m : Memory) (a b : Nat) (v : Byte) (h : ∀ c ∈ m, c.1 ≠ a) :
    (Memory.insert a v m).read b = if b = a then v else m.read b := by
  induction m with
  | nil => simp [Memory.insert, read_cons, eq_comm]
  | cons c m ih =>
    have hc : c.1 ≠ a := h c (by simp)
    have hm : ∀ d ∈ m, d.1 ≠ a := fun d hd => h d (by simp [hd])
    rw [Memory.insert]
    split
    · simp [read_cons, eq_comm]
    · rw [read_cons, ih hm, read_cons]
      by_cases hb : b = a
      · subst hb; simp [hc]
      · simp [hb]

/-- Clearing an address changes the reading of that address only. -/
theorem read_filter (m : Memory) (a b : Nat) :
    Memory.read (m.filter fun c => c.1 != a) b = if b = a then Memory.unlisted else m.read b := by
  induction m with
  | nil => simp
  | cons c m ih =>
    by_cases hc : c.1 = a
    · simp only [hc, bne_self_eq_false, Bool.false_eq_true, not_false_eq_true, List.filter_cons_of_neg, ih, read_cons]
      by_cases hb : b = a
      · simp [hb]
      · simp [hb, Ne.symm hb]
    · simp only [bne_iff_ne, ne_eq, hc, not_false_eq_true, List.filter_cons_of_pos, read_cons, ih]
      by_cases hb : b = a
      · subst hb; simp [hc]
      · simp [hb]

/-- A cell reads as the most recent write to it (R61), and a write leaves every other cell alone (R57). -/
theorem read_write (m : Memory) (a b : Nat) (v : Byte) :
    (m.write a v).read b = if b = a then v else m.read b := by
  unfold Memory.write
  by_cases hv : v = Memory.unlisted
  · simp [hv, read_filter]
  · simp only [hv, if_false]
    rw [read_insert _ _ _ _ (by simp), read_filter]
    by_cases hb : b = a <;> simp [hb]

/-! ## The canonical form -/

theorem mem_insert {m : Memory} {a : Nat} {v : Byte} {c : Host.Cell} :
    c ∈ Memory.insert a v m ↔ c = (a, v) ∨ c ∈ m := by
  induction m with
  | nil => simp [Memory.insert]
  | cons d m ih =>
    rw [Memory.insert]
    split
    · simp
    · simp [ih, or_left_comm]

theorem insert_pairwise {m : Memory} {a : Nat} {v : Byte} (hm : m.Pairwise (fun c d => c.1 < d.1))
    (ha : ∀ c ∈ m, c.1 ≠ a) : (Memory.insert a v m).Pairwise (fun c d => c.1 < d.1) := by
  induction m with
  | nil => simp [Memory.insert]
  | cons c m ih =>
    obtain ⟨hc, hm'⟩ := List.pairwise_cons.1 hm
    have hca : c.1 ≠ a := ha c (by simp)
    rw [Memory.insert]
    split
    · next hlt =>
      refine List.pairwise_cons.2 ⟨fun d hd => ?_, hm⟩
      rcases List.mem_cons.1 hd with rfl | hd
      · exact hlt
      · exact lt_trans hlt (hc d hd)
    · next hge =>
      refine List.pairwise_cons.2 ⟨fun d hd => ?_, ih hm' fun d hd => ha d (by simp [hd])⟩
      rcases mem_insert.1 hd with rfl | hd
      · show c.1 < a
        omega
      · exact hc d hd

/-- A write inside the address space keeps the canonical form. -/
theorem write_wf {m : Memory} {a : Nat} {v : Byte} (hm : m.wf) (ha : a < memSize) : (m.write a v).wf := by
  obtain ⟨hp, hc⟩ := hm
  have hpf : (m.filter fun c => c.1 != a).Pairwise (fun c d => c.1 < d.1) := hp.filter _
  unfold Memory.write
  by_cases hv : v = Memory.unlisted
  · simp only [hv, if_true]
    exact ⟨hpf, fun c h => hc c (List.mem_filter.1 h).1⟩
  · simp only [hv, if_false]
    refine ⟨insert_pairwise hpf (by simp), fun c h => ?_⟩
    rcases mem_insert.1 h with rfl | h
    · exact ⟨ha, hv⟩
    · exact hc c (List.mem_filter.1 h).1

theorem place_wf {m : Memory} {a : Nat} {bs : List Byte} (hm : m.wf) (h : a + bs.length ≤ memSize) :
    (m.place a bs).wf := by
  induction bs generalizing m a with
  | nil => exact hm
  | cons b bs ih =>
    simp only [List.length_cons] at h
    exact ih (write_wf hm (by omega)) (by omega)

/-- The reset memory has the canonical form. -/
theorem reset_mem_wf : State.reset.mem.wf := by decide

/-- The memory after `reset(image)` has the canonical form. -/
theorem resetWith_mem_wf {image : List Byte} {s : State} (h : resetWith image = some s) : s.mem.wf := by
  unfold resetWith at h
  split at h
  · next hl =>
    cases h
    exact place_wf reset_mem_wf (by simpa using hl)
  · cases h

/-! ## Placing bytes -/

/-- Placed bytes read back at their addresses, and every other cell reads as before. -/
theorem read_place (m : Memory) (a b : Nat) (bs : List Byte) :
    (m.place a bs).read b = if h : a ≤ b ∧ b - a < bs.length then bs[b - a]'h.2 else m.read b := by
  induction bs generalizing m a with
  | nil => simp [Memory.place]
  | cons c bs ih =>
    rw [Memory.place, ih, read_write]
    by_cases hb : b = a
    · subst hb
      simp
    · by_cases hlt : a + 1 ≤ b ∧ b - (a + 1) < bs.length
      · have hle : a ≤ b ∧ b - a < (c :: bs).length := by simp only [List.length_cons]; omega
        rw [dif_pos hlt, dif_pos hle]
        have : b - a = (b - (a + 1)) + 1 := by omega
        simp [this]
      · have hnle : ¬(a ≤ b ∧ b - a < (c :: bs).length) := by simp only [List.length_cons]; omega
        rw [dif_neg hlt, dif_neg hnle, if_neg hb]

/-! ## The primitives -/

section Primitives
variable (s : State) (a : Nat) (v : Int)

/-- `MemRead` inside the address space (R51). -/
theorem memRead_inside (h : a < memSize) : s.memRead a = .ok (s.mem.read a) := by
  simp [State.memRead, h]

/-- `MemRead` above it (R51). -/
theorem memRead_outside (h : memSize ≤ a) : s.memRead a = .error ⟨.memoryBounds, a⟩ := by
  simp [State.memRead, Nat.not_lt.2 h]

/-- `MemWrite` inside the address space (R52). -/
theorem memWrite_inside (h : a < memSize) :
    s.memWrite a v = .ok { s with mem := s.mem.write a (trunc8 v) } := by
  simp [State.memWrite, h]

/-- `MemWrite` above it (R52). -/
theorem memWrite_outside (h : memSize ≤ a) : s.memWrite a v = .error ⟨.memoryBounds, a⟩ := by
  simp [State.memWrite, Nat.not_lt.2 h]

/-- A byte is always an address, so the data access of a PUSH never faults (R66). -/
theorem memWrite_byte (b : Byte) :
    s.memWrite b.toNat v = .ok { s with mem := s.mem.write b.toNat (trunc8 v) } :=
  memWrite_inside s b.toNat v b.isLt

/-- A byte is always an address, so the data access of a POP never faults (R66). -/
theorem memRead_byte (b : Byte) : s.memRead b.toNat = .ok (s.mem.read b.toNat) :=
  memRead_inside s b.toNat b.isLt

end Primitives

end Sys2Proof.Machine
end

