-- ==== Sys2Proof/Laws/Handlers.lean ====
section
/-! SUPPORT. The shared operations the handlers are written over: register operands and the register file (R24, R25, R72),
the ALU handler, the jump handler, and what a handler can do to the state as a whole. -/

namespace Sys2Proof.Machine

open Sys2Proof.Config

section Registers
variable (s : State) (b : Byte) (v : Int)

theorem legalIndex_iff : legalIndex b ↔ b.toNat ≤ 7 := Nat.lt_succ_iff

theorem not_legalIndex_iff : ¬legalIndex b ↔ 7 < b.toNat := by
  rw [legalIndex_iff]
  omega

theorem registerOperand_legal (h : legalIndex b) : registerOperand b = .ok ⟨b.toNat, h⟩ := by
  simp only [registerOperand]
  exact dif_pos h

theorem registerOperand_illegal (h : ¬legalIndex b) : registerOperand b = .error ⟨.registerIndex, b.toNat⟩ := by
  simp only [registerOperand]
  exact dif_neg h

theorem readReg_legal (h : legalIndex b) : s.readReg b = .ok (s.regs[b.toNat]) := by
  simp [State.readReg, registerOperand_legal b h]

theorem readReg_illegal (h : ¬legalIndex b) : s.readReg b = .error ⟨.registerIndex, b.toNat⟩ := by
  simp [State.readReg, registerOperand_illegal b h]

theorem writeReg_legal (h : legalIndex b) :
    s.writeReg b v = .ok { s with regs := s.regs.set b.toNat (trunc8 v) } := by
  simp [State.writeReg, registerOperand_legal b h]

theorem writeReg_illegal (h : ¬legalIndex b) : s.writeReg b v = .error ⟨.registerIndex, b.toNat⟩ := by
  simp [State.writeReg, registerOperand_illegal b h]

end Registers

/-- `runAlu` on legal operands: both are read, the output is written back, and the pc moves by three. -/
theorem runAlu_legal (s : State) (op : AluOp) (a b : Byte) (ha : legalIndex a) (hb : legalIndex b) :
    s.runAlu op a b = .ok
      (match alu op s.regs[a.toNat] s.regs[b.toNat] with
        | .result v => { s with regs := s.regs.set a.toNat v, pc := s.pc + 3 }
        | .flag f => { s with fl := f, pc := s.pc + 3 }) := by
  simp only [State.runAlu, readReg_legal s a ha, readReg_legal s b hb, ok_bind]
  cases alu op s.regs[a.toNat] s.regs[b.toNat] with
  | result v => simp [State.writeAlu, writeReg_legal _ a _ ha, State.advance]
  | flag f => simp [State.writeAlu, State.advance]

/-- `runAlu` raises for its first register byte, then for its second (R165). -/
theorem runAlu_illegal_first (s : State) (op : AluOp) (a b : Byte) (ha : ¬legalIndex a) :
    s.runAlu op a b = .error ⟨.registerIndex, a.toNat⟩ := by
  simp [State.runAlu, readReg_illegal s a ha]

theorem runAlu_illegal_second (s : State) (op : AluOp) (a b : Byte) (ha : legalIndex a) (hb : ¬legalIndex b) :
    s.runAlu op a b = .error ⟨.registerIndex, b.toNat⟩ := by
  simp [State.runAlu, readReg_legal s a ha, readReg_illegal s b hb]

/-- `jumpIf` on a legal register changes the pc alone. -/
theorem jumpIf_legal (s : State) (taken : Bool) (r : Byte) (h : legalIndex r) :
    s.jumpIf taken r = .ok { s with pc := if taken then (s.regs[r.toNat]).toNat else s.pc + 2 } := by
  cases taken <;> simp [State.jumpIf, readReg_legal s r h, State.jumpTo, State.advance]

theorem jumpIf_illegal (s : State) (taken : Bool) (r : Byte) (h : ¬legalIndex r) :
    s.jumpIf taken r = .error ⟨.registerIndex, r.toNat⟩ := by
  simp [State.jumpIf, readReg_illegal s r h]

/-- The comparison gives exactly one of the three values (R124). -/
theorem compareFlag_cases (a b : Byte) :
    (a.toNat = b.toNat ∧ compareFlag a b = .equal) ∨ (b.toNat < a.toNat ∧ compareFlag a b = .greater) ∨
      (a.toNat < b.toNat ∧ compareFlag a b = .less) := by
  unfold compareFlag
  split
  · exact .inl ⟨‹_›, rfl⟩
  · split
    · exact .inr (.inl ⟨‹_›, rfl⟩)
    · exact .inr (.inr ⟨by omega, rfl⟩)

end Sys2Proof.Machine
end

