-- ==== Sys2Proof/Laws/Fetch.lean ====
section
/-! SUPPORT. The dispatcher, the fetch and the step: what each answers, once. -/

namespace Sys2Proof

open Sys2Proof.Config

theorem mem_allOpcodes (k : Opcode) : k ∈ allOpcodes := by
  cases k <;> decide

/-- Under a legal assignment two opcodes have two bytes (R8). -/
theorem opcodeByte_injective {m : OpcodeMap} (h : m.Legal) {j k : Opcode} (e : opcodeByte m j = opcodeByte m k) :
    j = k :=
  List.inj_on_of_nodup_map h (mem_allOpcodes j) (mem_allOpcodes k) e

/-- The dispatcher's answer has the byte it was asked for. -/
theorem dispatch_byte {m : OpcodeMap} {b : Byte} {k : Opcode} (h : dispatch m b = some k) : opcodeByte m k = b := by
  simpa using List.find?_some h

/-- The dispatcher answers with the opcode of a listed byte. -/
theorem dispatch_opcodeByte {m : OpcodeMap} (h : m.Legal) (k : Opcode) : dispatch m (opcodeByte m k) = some k := by
  cases hd : dispatch m (opcodeByte m k) with
  | none =>
    have := List.find?_eq_none.1 hd k (mem_allOpcodes k)
    simp at this
  | some j => exact congrArg some (opcodeByte_injective h (dispatch_byte hd))

/-- The dispatcher answers `unknown` exactly for a byte no row has. -/
theorem dispatch_eq_none {m : OpcodeMap} {b : Byte} : dispatch m b = none ↔ ∀ k, opcodeByte m k ≠ b := by
  simp only [dispatch, List.find?_eq_none, beq_iff_eq]
  exact ⟨fun h k => h k (mem_allOpcodes k), fun h k _ => h k⟩

/-- The machine's own assignment is legal. -/
theorem defaultOpcodes_legal : defaultOpcodes.Legal := by decide

@[simp] theorem opcode_of_instr (k : Opcode) (a b : Byte) : (k.instr a b).opcode = k := by
  cases k <;> rfl

namespace Machine

/-- What fetch raises, in the order of R165, or the instruction it gives. -/
theorem fetch_cases (m : OpcodeMap) (s : State) :
    (memSize ≤ s.pc ∧ s.fetch m = .error ⟨.memoryBounds, s.pc⟩) ∨
    (s.pc < memSize ∧ dispatch m (s.mem.read s.pc) = none ∧
      s.fetch m = .error ⟨.unknownOpcode, (s.mem.read s.pc).toNat⟩) ∨
    (∃ k, s.pc < memSize ∧ dispatch m (s.mem.read s.pc) = some k ∧
      ((2 ≤ k.length ∧ memSize ≤ s.pc + 1 ∧ s.fetch m = .error ⟨.memoryBounds, s.pc + 1⟩) ∨
       (k.length = 3 ∧ s.pc + 1 < memSize ∧ memSize ≤ s.pc + 2 ∧ s.fetch m = .error ⟨.memoryBounds, s.pc + 2⟩) ∨
       (s.pc + k.length ≤ memSize ∧
         s.fetch m = .ok (k.instr (s.mem.read (s.pc + 1)) (s.mem.read (s.pc + 2)))))) := by
  by_cases h0 : s.pc < memSize
  · rcases hd : dispatch m (s.mem.read s.pc) with _ | k
    · exact .inr (.inl ⟨h0, rfl, by simp [State.fetch, memRead_inside s _ h0, hd]⟩)
    · refine .inr (.inr ⟨k, h0, rfl, ?_⟩)
      by_cases h1 : s.pc + 1 < memSize
      · by_cases h2 : s.pc + 2 < memSize
        · refine .inr (.inr ⟨?_, ?_⟩)
          · have : k.length ≤ 3 := by cases k <;> decide
            simp only [memSize] at *; omega
          · cases k <;> simp [State.fetch, memRead_inside, h0, h1, h2, hd, Opcode.length, Opcode.format,
              Format.length, Opcode.instr]
        · cases k <;> simp_all [State.fetch, memRead_inside, memRead_outside, Opcode.length,
            Opcode.format, Format.length, Opcode.instr] <;> omega
      · cases k <;> simp_all [State.fetch, memRead_inside, memRead_outside, Opcode.length,
          Opcode.format, Format.length, Opcode.instr]
  · exact .inl ⟨by omega, by simp [State.fetch, memRead_outside s _ (Nat.not_lt.1 h0)]⟩

/-- A step answers a next state only while Running, and then it is the fetched instruction's handler or the fault
the fetch raised. -/
theorem stepWith_cases {m : OpcodeMap} {s t : State} (h : stepWith m s = .next t) :
    s.status = .running ∧
      ((∃ i, s.fetch m = .ok i ∧ exec i s = .next t) ∨ (∃ e, s.fetch m = .error e ∧ t = s.takeFault e)) := by
  obtain ⟨hr, hs⟩ := (whenRunning_next s t).1 h
  refine ⟨hr, ?_⟩
  cases hf : s.fetch m with
  | ok i => exact .inl ⟨i, rfl, by simpa [hf] using hs⟩
  | error e => exact .inr ⟨e, rfl, by simpa [hf] using hs.symm⟩

/-- While Running, a step is the fetched instruction's handler. -/
theorem stepWith_of_fetch_ok {m : OpcodeMap} {s : State} {i : Instr} (hr : s.status = .running)
    (h : s.fetch m = .ok i) : stepWith m s = exec i s := by
  simp [stepWith, whenRunning_running s hr, h]

/-- While Running, a step takes the fault its fetch raises. -/
theorem stepWith_of_fetch_error {m : OpcodeMap} {s : State} {e : Raise} (hr : s.status = .running)
    (h : s.fetch m = .error e) : stepWith m s = .next (s.takeFault e) := by
  simp [stepWith, whenRunning_running s hr, h]

/-- One more step of a run, by what the step answers. -/
theorem runWith_succ_next {m : OpcodeMap} {s t : State} (n : Nat) (h : stepWith m s = .next t) :
    runWith m (n + 1) s = runWith m n t := by
  simp [runWith, h]

/-- One more step of the machine's run. -/
theorem run_succ_next {s t : State} (n : Nat) (h : step s = .next t) : run (n + 1) s = run n t :=
  runWith_succ_next n h

/-- A run stays where there is no next state. -/
theorem runWith_of_no_step {m : OpcodeMap} {s : State} (n : Nat) (h : ∀ t, stepWith m s ≠ .next t) :
    runWith m n s = s := by
  cases n with
  | zero => rfl
  | succ n =>
    unfold runWith
    cases hs : stepWith m s with
    | next t => exact absurd hs (h t)
    | fault _ => rfl
    | refused _ => rfl

/-- The machine's run stays where there is no next state. -/
theorem run_of_no_step {s : State} (n : Nat) (h : ∀ t, step s ≠ .next t) : run n s = s :=
  runWith_of_no_step n h

end Machine
end Sys2Proof
end

