-- ==== Sys2Proof/Laws/PerInstr.lean ====
section
/-! SUPPORT. The family EncodedShape, about each instruction as syntax: its encoding begins with its own opcode byte
and has the length of its opcode (R70, R71, R79), under every assignment of the opcode parameters. -/

namespace Sys2Proof.Laws.EncodedShape

open Sys2Proof.Config

/-- The encoding of `i` is its opcode's byte and as many bytes as the opcode's length. -/
def Statement (i : Instr) : Prop :=
  ∀ m : OpcodeMap, (encodeWith m i).head? = some (opcodeByte m i.opcode) ∧
    (encodeWith m i).length = i.opcode.length

theorem ldi (r imm : Byte) : Statement (.ldi r imm) := fun _ => ⟨rfl, rfl⟩
theorem prn (r : Byte) : Statement (.prn r) := fun _ => ⟨rfl, rfl⟩
theorem hlt : Statement .hlt := fun _ => ⟨rfl, rfl⟩
theorem mul (a b : Byte) : Statement (.mul a b) := fun _ => ⟨rfl, rfl⟩
theorem push (r : Byte) : Statement (.push r) := fun _ => ⟨rfl, rfl⟩
theorem pop (r : Byte) : Statement (.pop r) := fun _ => ⟨rfl, rfl⟩
theorem cmp (a b : Byte) : Statement (.cmp a b) := fun _ => ⟨rfl, rfl⟩
theorem jmp (r : Byte) : Statement (.jmp r) := fun _ => ⟨rfl, rfl⟩
theorem jeq (r : Byte) : Statement (.jeq r) := fun _ => ⟨rfl, rfl⟩
theorem jne (r : Byte) : Statement (.jne r) := fun _ => ⟨rfl, rfl⟩

end Sys2Proof.Laws.EncodedShape
end

