-- ==== Sys2Proof/Tests/Slice0.lean ====
section
/-! SUPPORT. The model's own tests. Expected values come from spec/95_test_vectors.md (sections named in the comments) or
from the encodings of R71 and R74. Witnesses show a concrete state and operands that meet the hypotheses of a
statement, one for each clause at a boundary. -/

namespace Sys2Proof.Tests

open Sys2Proof Sys2Proof.Config Sys2Proof.Machine

/-- The reset state with bytes standing at `pc`. -/
def stateAt (pc : Nat) (bytes : List Byte) : State :=
  { State.reset with pc := pc, mem := Memory.place [] pc bytes }

/-- The same with registers given as (index, value) pairs. -/
def withRegs (s : State) : List (Fin 8 × Byte) → State
  | [] => s
  | p :: ps => withRegs { s with regs := s.regs.set p.1 p.2 } ps

/-- The next state, where there is one. -/
def nextOf : Host.Outcome State Fault Refusal → Option State
  | .next t => some t
  | .fault _ => none
  | .refused _ => none

/-! ## WellFormed refuses (R72, R78) -/

theorem test_illformed_ldi : (Instr.ldi 8 0).wellFormed = false ∧ (Instr.ldi 7 0xFF).wellFormed = true := by decide
theorem test_illformed_prn : (Instr.prn 8).wellFormed = false ∧ (Instr.prn 7).wellFormed = true := by decide
theorem test_illformed_mul_first : (Instr.mul 8 0).wellFormed = false := by decide
theorem test_illformed_mul_second : (Instr.mul 7 8).wellFormed = false ∧ (Instr.mul 7 7).wellFormed = true := by decide
theorem test_illformed_push : (Instr.push 8).wellFormed = false ∧ (Instr.push 7).wellFormed = true := by decide
theorem test_illformed_pop : (Instr.pop 9).wellFormed = false ∧ (Instr.pop 7).wellFormed = true := by decide
theorem test_illformed_cmp_first : (Instr.cmp 0xFF 0).wellFormed = false := by decide
theorem test_illformed_cmp_second : (Instr.cmp 7 8).wellFormed = false ∧ (Instr.cmp 7 7).wellFormed = true := by decide
theorem test_illformed_jmp : (Instr.jmp 8).wellFormed = false ∧ (Instr.jmp 7).wellFormed = true := by decide
theorem test_illformed_jeq : (Instr.jeq 8).wellFormed = false ∧ (Instr.jeq 7).wellFormed = true := by decide
theorem test_illformed_jne : (Instr.jne 8).wellFormed = false ∧ (Instr.jne 7).wellFormed = true := by decide

/-! ## Decode: words written from R71 and R74, bit by bit -/

theorem test_decode_ldi : decode [0b10000010, 0b00000001, 0b00001001] = .ok (.ldi 1 9, []) := rfl
theorem test_decode_prn : decode [0b01000111, 0b00000000] = .ok (.prn 0, []) := rfl
theorem test_decode_hlt : decode [0b00000001, 0b10000010] = .ok (.hlt, [0b10000010]) := rfl
theorem test_decode_mul : decode [0b10100010, 0b00000010, 0b00000101] = .ok (.mul 2 5, []) := rfl
theorem test_decode_push : decode [0b01000101, 0b00000111] = .ok (.push 7, []) := rfl
theorem test_decode_pop : decode [0b01000110, 0b00000001] = .ok (.pop 1, []) := rfl
theorem test_decode_cmp : decode [0b10100111, 0b00000000, 0b00000010] = .ok (.cmp 0 2, []) := rfl
theorem test_decode_jmp : decode [0b01010100, 0b00000010] = .ok (.jmp 2, []) := rfl
theorem test_decode_jeq : decode [0b01010101, 0b00000011] = .ok (.jeq 3, []) := rfl
theorem test_decode_jne : decode [0b01010110, 0b00000100] = .ok (.jne 4, []) := rfl
/-- A bad register byte still decodes: the handler raises (R78). -/
theorem test_decode_bad_register : decode [0b10000010, 0b00001000, 0b00000001] = .ok (.ldi 8 1, []) := rfl
/-- 2.12: 0xA0 is no instruction. -/
theorem test_decode_refuses_a0 : decode [0xA0, 0, 1] = .error (.unknownOpcode 0xA0) := rfl
theorem test_decode_refuses_short : decode [0xA2, 9] = .error (.missingOperand 2) := rfl
theorem test_decode_refuses_empty : decode [] = .error .noOpcode := rfl
/-- The table's numbering: the first byte is bits 7..0. -/
theorem test_table_word : decodeTableWord 24 0x090182 = some (.ldi 1 9) := by decide
theorem test_table_word_short : decodeTableWord 8 0xFFA2 = some (.mul 0 0) := by decide
theorem test_encode : encode (.cmp 0 2) = [0xA7, 0, 2] := by decide

/-! ## Single steps: 95_test_vectors.md -/

/-- 2.1, first row. -/
theorem test_ldi : (nextOf (step (stateAt 0 [0x82, 0x00, 0x08]))).map (fun t => (t.regs[0], t.pc)) = some (8, 3) := by decide
/-- 2.1, fourth row. -/
theorem test_ldi_bad_register :
    nextOf (step (stateAt 0 [0x82, 0x08, 0x01])) = some (faultedAt (stateAt 0 [0x82, 0x08, 0x01]) .registerIndex 8) := by
  decide
/-- 2.2, third row. -/
theorem test_prn : (nextOf (step (stateAt 0 [0x47, 0x07]))).map (fun t => (t.out, t.pc)) = some ([0xF4], 2) := by decide
/-- 2.3, second row. -/
theorem test_hlt_at_255 : (nextOf (step (stateAt 255 [0x01]))).map (fun t => (t.status, t.pc)) = some (.halted, 255) := by
  decide
/-- 2.4, rows two and eight. -/
theorem test_mul_wraps :
    (nextOf (exec (.mul 0 1) (withRegs State.reset [(0, 200), (1, 2)]))).map (fun t => t.regs[0]) = some 144 := by decide
theorem test_mul_sp :
    (nextOf (exec (.mul 7 1) (withRegs State.reset [(1, 2)]))).map (fun t => t.regs[7]) = some 0xE8 := by decide
/-- 2.5, rows four and seven. -/
theorem test_cmp_unsigned :
    (nextOf (exec (.cmp 0 1) (withRegs State.reset [(1, 255)]))).map (fun t => t.fl) = some .less := by decide
theorem test_cmp_replaces :
    (nextOf (exec (.cmp 0 1) { withRegs State.reset [(0, 5), (1, 5)] with fl := .less })).map (fun t => t.fl) =
      some .equal := by decide
/-- 2.7, rows two and four. -/
theorem test_push_sp :
    (nextOf (exec (.push 7) State.reset)).map (fun t => (t.regs[7], t.mem)) = some (0xF3, [(0xF3, 0xF3)]) := by decide
theorem test_push_over_program :
    (nextOf (exec (.push 1) (withRegs State.reset [(7, 1), (1, 0xAA)]))).map (fun t => (t.regs[7], t.mem)) =
      some (0x00, [(0, 0xAA)]) := by decide
/-- 2.8, rows two and three. -/
theorem test_pop_wraps :
    (nextOf (exec (.pop 2) (withRegs (stateAt 255 [0xAA]) [(7, 0xFF)]))).map (fun t => (t.regs[2], t.regs[7])) =
      some (0xAA, 0x00) := by decide
theorem test_pop_sp :
    (nextOf (exec (.pop 7) (withRegs (stateAt 0xF3 [0x10]) [(7, 0xF3)]))).map (fun t => t.regs[7]) = some 0x11 := by decide
/-- 2.9, rows one and four. -/
theorem test_jmp : (nextOf (exec (.jmp 2) (withRegs State.reset [(2, 7)]))).map (fun t => t.pc) = some 7 := by decide
theorem test_jmp_bad_register :
    (nextOf (exec (.jmp 8) State.reset)).map (fun t => t.status) = some (.faulted .registerIndex 0 8) := by decide
/-- 2.10, rows one and five. -/
theorem test_jeq_taken :
    (nextOf (exec (.jeq 3) { withRegs (stateAt 19 []) [(3, 22)] with fl := .equal })).map (fun t => t.pc) = some 22 := by
  decide
theorem test_jeq_untaken_bad_register :
    (nextOf (exec (.jeq 8) (stateAt 19 []))).map (fun t => t.status) = some (.faulted .registerIndex 19 8) := by decide
/-- 2.11, rows three and four. -/
theorem test_jne_unset_taken :
    (nextOf (exec (.jne 3) (withRegs (stateAt 18 []) [(3, 12)]))).map (fun t => t.pc) = some 12 := by decide
theorem test_jne_equal_untaken :
    (nextOf (exec (.jne 3) { withRegs (stateAt 18 []) [(3, 12)] with fl := .equal })).map (fun t => t.pc) = some 20 := by
  decide
/-- 2.12, rows one, four and five. -/
theorem test_zero_fill_faults :
    (nextOf (step State.reset)).map (fun t => t.status) = some (.faulted .unknownOpcode 0 0) := by decide
theorem test_unknown_at_255 :
    (nextOf (step (stateAt 255 []))).map (fun t => t.status) = some (.faulted .unknownOpcode 255 0) := by decide
theorem test_fetch_at_256 :
    (nextOf (step (stateAt 256 []))).map (fun t => t.status) = some (.faulted .memoryBounds 256 256) := by decide
/-- 2.6: ADD and SUB at function level. -/
theorem test_alu_add : alu .add 200 100 = .result 44 ∧ alu .add 255 1 = .result 0 := by decide
theorem test_alu_sub : alu .sub 5 6 = .result 255 ∧ alu .sub 0 255 = .result 1 := by decide
/-- R10's own examples. -/
theorem test_trunc8 : trunc8 (-1) = 255 ∧ trunc8 400 = 144 := by decide
/-- R30, and R154's last sentence: only EQUAL has bit 0. -/
theorem test_flag_bytes : Flag.unset.byte = 0 ∧ Flag.equal.byte = 1 ∧ Flag.greater.byte = 2 ∧ Flag.less.byte = 4 := by
  decide
/-- R161's codes. -/
theorem test_codes : FaultCause.unknownOpcode.code = 1 ∧ FaultCause.memoryBounds.code = 2 ∧
    FaultCause.registerIndex.code = 3 ∧ FaultCause.unsupportedAluOperation.code = 4 ∧
    Status.running.code = 0 ∧ Status.halted.code = 1 ∧ (Status.faulted .registerIndex 0 8).code = 2 := by decide
/-- W6, a part of file A: a comment line, a literal with a comment, a blank line. -/
theorem test_load :
    (loadFile (some "# e\n10000010  # LDI R0,8\n00000000\n\n00001000\n".toList)).toOption = some [0x82, 0x00, 0x08] := by
  decide
/-- D18: a literal of more than eight digits is truncated; R184 step 4: any other character is refused. -/
theorem test_parse_line : (parseLine "110000010".toList).toOption = some (some 0x82) ∧
    (parseLine "12".toList).toOption = none := by decide
/-- R114's example, and its `0`. -/
theorem test_render : renderOut [72, 0, 255] = ['7', '2', '\n', '0', '\n', '2', '5', '5', '\n'] := by decide

/-! ## Witnesses of the statements' hypotheses -/

/-- An assignment of the opcode parameters other than the default. -/
def otherMap : OpcodeMap := { opPush := 0x10, opPop := 0x11, opCmp := 0x12, opJmp := 0x13, opJeq := 0x14, opJne := 0x15 }

theorem witness_DispatchMatchesWholeOpcodeByte :
    defaultOpcodes.Legal ∧ Opcode.ldi.length ≤ [(0 : Byte), 8].length + 1 ∧ dispatch defaultOpcodes 0xA0 = none ∧
      dispatch defaultOpcodes 0x82 = some .ldi := by decide

theorem witness_DecodeInvertsEncode : otherMap.Legal ∧ decodeWith otherMap (encodeWith otherMap (.push 0xFF) ++ [1]) =
    .ok (.push 0xFF, [1]) := ⟨by decide, rfl⟩

theorem witness_EncodeInvertsDecode : decodeWith otherMap [0x12, 0x00, 0xFF, 0x01] = .ok (.cmp 0 0xFF, [0x01]) := rfl

theorem witness_StepRunsDecodedInstruction : (stateAt 254 [0x47, 0x07]).status = .running ∧
    decode (stateAt 254 [0x47, 0x07]).codeBytes = .ok (.prn 7, []) := ⟨rfl, rfl⟩

theorem witness_StepHoldsForEveryOpcodeAssignment : otherMap.Legal ∧ (stateAt 253 [0x12, 0x00, 0x07]).status = .running ∧
    BytesAtPc (stateAt 253 [0x12, 0x00, 0x07]) (encodeWith otherMap (.cmp 0 7)) :=
  ⟨by decide, rfl, by decide, by decide⟩

/-- R165's clauses, each at the boundary where the one before it ends. -/
theorem witness_FirstFailedCheck_opcode_fetch : (stateAt 256 []).status = .running ∧ 255 < (stateAt 256 []).pc := by decide
theorem witness_FirstFailedCheck_unknown : (stateAt 255 []).pc ≤ 255 ∧
    dispatch defaultOpcodes ((stateAt 255 []).mem.read 255) = none := by decide
theorem witness_FirstFailedCheck_first_operand :
    dispatch defaultOpcodes ((stateAt 255 [0x47]).mem.read 255) = some .prn ∧ 2 ≤ Opcode.prn.length ∧
      (nextOf (step (stateAt 255 [0x47]))).map (fun t => t.status) = some (.faulted .memoryBounds 255 256) := by decide
theorem witness_FirstFailedCheck_second_operand :
    dispatch defaultOpcodes ((stateAt 254 [0xA2, 0x09]).mem.read 254) = some .mul ∧ Opcode.mul.length = 3 ∧
      (nextOf (step (stateAt 254 [0xA2, 0x09]))).map (fun t => t.status) = some (.faulted .memoryBounds 254 256) := by decide
theorem witness_FirstFailedCheck_first_register :
    dispatch defaultOpcodes ((stateAt 253 [0xA2, 0x08, 0x09]).mem.read 253) = some .mul ∧ 253 + Opcode.mul.length ≤ 256 ∧
      7 < ((stateAt 253 [0xA2, 0x08, 0x09]).mem.read 254).toNat ∧
      (nextOf (step (stateAt 253 [0xA2, 0x08, 0x09]))).map (fun t => t.status) =
        some (.faulted .registerIndex 253 8) := by decide
theorem witness_FirstFailedCheck_second_register :
    dispatch defaultOpcodes ((stateAt 253 [0xA7, 0x07, 0x08]).mem.read 253) = some .cmp ∧
      ((stateAt 253 [0xA7, 0x07, 0x08]).mem.read 254).toNat ≤ 7 ∧
      7 < ((stateAt 253 [0xA7, 0x07, 0x08]).mem.read 255).toNat ∧
      (nextOf (step (stateAt 253 [0xA7, 0x07, 0x08]))).map (fun t => t.status) =
        some (.faulted .registerIndex 253 8) := by decide
theorem witness_FirstFailedCheck_no_fault :
    dispatch defaultOpcodes ((stateAt 253 [0xA7, 0x07, 0x07]).mem.read 253) = some .cmp ∧
      ((stateAt 253 [0xA7, 0x07, 0x07]).mem.read 254).toNat ≤ 7 ∧
      ((stateAt 253 [0xA7, 0x07, 0x07]).mem.read 255).toNat ≤ 7 ∧
      (nextOf (step (stateAt 253 [0xA7, 0x07, 0x07]))).map (fun t => (t.status, t.pc)) = some (.running, 256) := by decide

theorem witness_UnlistedByteRaisesUnknownOpcode : (stateAt 255 [0xFF]).status = .running ∧ (stateAt 255 [0xFF]).pc ≤ 255 ∧
    ∀ k, opcodeByte defaultOpcodes k ≠ (stateAt 255 [0xFF]).mem.read 255 :=
  ⟨rfl, by decide, fun k => by cases k <;> decide⟩

theorem witness_AddAndSubBytesAreUnknown : (stateAt 3 [0xA0, 0, 1]).status = .running ∧
    (stateAt 3 [0xA0, 0, 1]).mem.read 3 = 0xA0 ∧ (stateAt 255 [0xA1]).mem.read 255 = 0xA1 := by decide

theorem witness_FinalStatesStopByName : ({ State.reset with status := .halted } : State).status = .halted ∧
    ({ State.reset with status := .faulted .registerIndex 0 8 } : State).status = .faulted .registerIndex 0 8 := by decide

theorem witness_FaultIsPreciseAndTerminal :
    step (stateAt 3 [0xFF]) = .next (faultedAt (stateAt 3 [0xFF]) .unknownOpcode 0xFF) ∧
      (faultedAt (stateAt 3 [0xFF]) .unknownOpcode 0xFF).status = .faulted .unknownOpcode 3 0xFF := ⟨rfl, rfl⟩

theorem witness_PlacedWordIsTheNextInstruction : decodeTableWord 24 0x0900A2 = some (.mul 0 9) ∧
    decode ((stateAt 254 []).withFetchWord 24 0x0900A2).codeBytes = .ok (.mul 0 9, []) := ⟨rfl, rfl⟩

theorem witness_StepKeepsInvariant : Inv (stateAt 255 [0x01]) ∧
    step (stateAt 255 [0x01]) = .next { stateAt 255 [0x01] with status := .halted } :=
  ⟨⟨by decide, by decide, trivial⟩, rfl⟩

theorem witness_EveryReachableStateMeetsInvariant : (resetWith [0x82, 0x00, 0x08, 0x01]).isSome = true := by decide

theorem witness_ResetSetsTheWholeState : ([0x82, 0x00, 0x05, 0xFF] : List Byte).length ≤ 256 := by decide

theorem witness_ResetWithNoImageIsTheResetState : 256 < (List.replicate 257 (0x01 : Byte)).length := by
  rw [List.length_replicate]
  decide

/-- The register clauses of the nine instruction statements that have one, of PushThenPopRestoresTheRegisters, of
LdiThenPrnEmitsTheImmediate and of ConditionalJumpAfterCmp: the last legal byte and the first bad one. -/
theorem witness_instruction_registers : (0x07 : Byte).toNat < 8 ∧ 7 < (0x08 : Byte).toNat ∧ (0x07 : Byte).toNat ≤ 7 := by
  decide

/-- The operand-fetch clauses of the three-byte instructions. -/
theorem witness_instruction_three_bytes : defaultOpcodes.Legal ∧
    (stateAt 255 [0x82]).status = .running ∧ (stateAt 255 [0x82]).mem.read (stateAt 255 [0x82]).pc = 0x82 ∧
    (stateAt 254 [0x82]).mem.read (stateAt 254 [0x82]).pc = 0x82 ∧
    (stateAt 255 [0xA2]).mem.read (stateAt 255 [0xA2]).pc = 0xA2 ∧
    (stateAt 254 [0xA2]).mem.read (stateAt 254 [0xA2]).pc = 0xA2 ∧
    (stateAt 255 [0xA7]).mem.read (stateAt 255 [0xA7]).pc = defaultOpcodes.opCmp ∧
    (stateAt 254 [0xA7]).mem.read (stateAt 254 [0xA7]).pc = defaultOpcodes.opCmp := by decide

/-- The operand-fetch clauses of the two-byte instructions, and HLT at the last address. -/
theorem witness_instruction_two_bytes : defaultOpcodes.Legal ∧
    (stateAt 255 [0x47]).mem.read (stateAt 255 [0x47]).pc = 0x47 ∧
    (stateAt 255 [0x45]).mem.read (stateAt 255 [0x45]).pc = defaultOpcodes.opPush ∧
    (stateAt 255 [0x46]).mem.read (stateAt 255 [0x46]).pc = defaultOpcodes.opPop ∧
    (stateAt 255 [0x54]).mem.read (stateAt 255 [0x54]).pc = defaultOpcodes.opJmp ∧
    (stateAt 255 [0x55]).mem.read (stateAt 255 [0x55]).pc = defaultOpcodes.opJeq ∧
    (stateAt 255 [0x56]).mem.read (stateAt 255 [0x56]).pc = defaultOpcodes.opJne ∧
    (stateAt 255 [0x01]).mem.read (stateAt 255 [0x01]).pc = 0x01 := by decide

theorem witness_flag_clauses : ({ State.reset with fl := .equal } : State).fl = .equal ∧ State.reset.fl ≠ .equal := by decide

theorem witness_EveryWellFormedInstructionCompletes : (Instr.cmp 7 7).wellFormed = true ∧ Instr.hlt.wellFormed = true := by
  decide

theorem witness_HandlerFaultsExactlyOnABadRegisterByte : State.reset.status = .running ∧
    exec (.mul 7 8) State.reset = .next (faultedAt State.reset .registerIndex 8) ∧
    (faultedAt State.reset .registerIndex 8).status = .faulted .registerIndex 0 8 := ⟨rfl, rfl, rfl⟩

theorem witness_RegisterFileReadsBackItsWrites : 7 < (0x08 : Byte).toNat ∧ (0x07 : Byte).toNat < 8 := by decide

theorem witness_MemoryReadsBackItsWrites : 255 < 256 ∧ 255 ≤ 255 := by decide

theorem witness_CanonicalMemoriesThatReadAlikeAreEqual :
    Memory.wf ((Memory.write [] 5 1).write 3 2) ∧ Memory.wf ((Memory.write [] 3 2).write 5 1) ∧
      ∀ a, a < 256 → Memory.read ((Memory.write [] 5 1).write 3 2) a = Memory.read ((Memory.write [] 3 2).write 5 1) a :=
  ⟨by decide, by decide, fun _ _ => rfl⟩

theorem witness_NextPcOfEachInstruction : exec (.jeq 7) State.reset = .next (State.reset.advance 2) ∧
    (Instr.jeq 7).wellFormed = true ∧ exec (.jeq 8) State.reset = .next (faultedAt State.reset .registerIndex 8) ∧
    (Instr.jeq 8).wellFormed = false := ⟨rfl, rfl, rfl, rfl⟩

theorem witness_FlagIsWrittenByCmpAndReadByJeqJne :
    exec (.cmp 0 7) State.reset = .next { State.reset with fl := .less, pc := 3 } ∧
      exec (.jmp 7) State.reset = .next { State.reset with pc := 0xF4 } ∧
      exec (.jne 7) State.reset = .next { State.reset with pc := 0xF4 } ∧
      (Flag.greater = .equal ↔ State.reset.fl = .equal) := ⟨rfl, rfl, rfl, by decide⟩

theorem witness_StepNeverUnsetsTheFlag :
    step { stateAt 0 [0xA7, 0x00, 0x07] with fl := .equal } =
      .next { stateAt 0 [0xA7, 0x00, 0x07] with fl := .less, pc := 3 } := rfl

theorem witness_OutputOnlyGrowsAndIsNeverRead :
    step (stateAt 0 [0x47, 0x07]) = .next { stateAt 0 [0x47, 0x07] with out := [0xF4], pc := 2 } := rfl

theorem witness_OnlyPushWritesAndOnlyPopReadsMemory :
    exec (.push 7) State.reset = .next { State.reset with
      mem := [(0xF3, 0xF3)], regs := State.reset.regs.set 7 0xF3, pc := 2 } ∧
    exec (.pop 0) State.reset = .next { State.reset with regs := State.reset.regs.set 7 0xF5, pc := 2 } ∧
    Memory.read [(3, 1)] State.reset.regs[spIndex].toNat = State.reset.mem.read State.reset.regs[spIndex].toNat :=
  ⟨rfl, rfl, rfl⟩

theorem witness_RegisterWritesOfEachInstruction :
    exec (.ldi 7 1) State.reset = .next { State.reset with regs := State.reset.regs.set 7 1, pc := 3 } ∧
      (State.reset.regs.set 7 1)[7] ≠ State.reset.regs[7] := ⟨rfl, by decide⟩

/-- R64: the pushed byte lands at the next pc (program P5), and PUSH R7 can do so at the last address. -/
theorem witness_PushedByteIsTheNextOpcode :
    (withRegs (stateAt 6 [0x45, 0x00]) [(7, 9), (0, 0x01)]).status = .running ∧ (0x00 : Byte).toNat < 8 ∧
      (trunc8 (((withRegs (stateAt 6 [0x45, 0x00]) [(7, 9), (0, 0x01)]).regs[spIndex].toNat : Int) - 1)).toNat = 6 + 2 ∧
      (0x07 : Byte).toNat < 8 ∧
      (trunc8 (((withRegs (stateAt 253 [0x45, 0x07]) [(7, 0)]).regs[spIndex].toNat : Int) - 1)).toNat = 253 + 2 := by
  decide

/-- The pushed byte of each clause: no opcode (PUSH R7 pushes 0xFF), an opcode whose bytes end at 255, and one whose
operand would be at 256. -/
theorem witness_PushedByteIsTheNextOpcode_clauses :
    dispatch defaultOpcodes 0xFF = none ∧
      dispatch defaultOpcodes 0x01 = some .hlt ∧ 255 + Opcode.hlt.length ≤ 256 ∧
      dispatch defaultOpcodes 0x82 = some .ldi ∧ 253 + Opcode.ldi.length ≤ 256 ∧
      256 < 254 + Opcode.ldi.length ∧ dispatch defaultOpcodes 0x47 = some .prn ∧ 256 < 255 + Opcode.prn.length := by decide

/-- R98, at the last address a JMP fits, under the default assignment and under another. -/
theorem witness_JumpToItselfNeverEnds : defaultOpcodes.Legal ∧
    (withRegs (stateAt 254 [0x54, 0x07]) [(7, 254)]).status = .running ∧
      BytesAtPc (withRegs (stateAt 254 [0x54, 0x07]) [(7, 254)]) (encodeWith defaultOpcodes (.jmp 7)) ∧
      ((withRegs (stateAt 254 [0x54, 0x07]) [(7, 254)]).regs[7]).toNat = 254 ∧
      otherMap.Legal ∧ BytesAtPc (withRegs (stateAt 254 [0x13, 0x07]) [(7, 254)]) (encodeWith otherMap (.jmp 7)) :=
  ⟨by decide, rfl, ⟨by decide, by decide⟩, rfl, by decide, ⟨by decide, by decide⟩⟩

theorem witness_FinalStateIsKept : (run 1 (stateAt 255 [0x01])).Final := by
  show (run 1 (stateAt 255 [0x01])).status ≠ .running
  decide

theorem witness_LoaderReadsBackWrittenBytes : ([(0x82, "LDI # x".toList)] : List (Byte × List Char)).length ≤ 256 := by
  decide

theorem witness_LoadFailures_literal : "2".toList ∈ [[], "2".toList] ∧ '2' ∈ trimLine (stripComment "2".toList) ∧
    '2' ≠ '0' ∧ '2' ≠ '1' := by decide

theorem witness_LoadFailures_lines :
    256 < ((List.replicate 257 ['1']).filter fun l => !(trimLine (stripComment l)).isEmpty).length := by decide +kernel

theorem witness_ExitStatusTellsTheEndings : exitFaultDefault ≠ 0 ∧ exitFaultDefault ≠ 2 := by decide

end Sys2Proof.Tests
end

/-! ## The step of an encoded instruction (R8, R94, R95) -/

namespace Sys2Proof

open Sys2Proof.Config

/-- The family EncodedShape holds of every instruction. -/
theorem encodedShape : ∀ i : Instr, Laws.EncodedShape.Statement i
  | .ldi r imm => Laws.EncodedShape.ldi r imm
  | .prn r => Laws.EncodedShape.prn r
  | .hlt => Laws.EncodedShape.hlt
  | .mul a b => Laws.EncodedShape.mul a b
  | .push r => Laws.EncodedShape.push r
  | .pop r => Laws.EncodedShape.pop r
  | .cmp a b => Laws.EncodedShape.cmp a b
  | .jmp r => Laws.EncodedShape.jmp r
  | .jeq r => Laws.EncodedShape.jeq r
  | .jne r => Laws.EncodedShape.jne r

/-- An encoding has the length of its opcode (R79). -/
@[simp] theorem encodeWith_length (m : OpcodeMap) (i : Instr) : (encodeWith m i).length = i.opcode.length :=
  (encodedShape i m).2

/-- Operand bytes that agree with an instruction's own, as far as it has any, make that instruction again. -/
theorem opcode_instr_of_operands (i : Instr) (byte : Nat → Byte)
    (h : ∀ k (hk : k < i.operands.length), byte k = i.operands[k]) :
    i.opcode.instr (byte 0) (byte 1) = i := by
  cases i with
  | hlt => rfl
  | prn r | push r | pop r | jmp r | jeq r | jne r =>
    have h0 : byte 0 = r := h 0 Nat.one_pos
    rw [h0]; rfl
  | ldi a b | mul a b | cmp a b =>
    have h0 : byte 0 = a := h 0 Nat.two_pos
    have h1 : byte 1 = b := h 1 Nat.one_lt_two
    rw [h0, h1]; rfl

namespace Machine

/-- Where a listed opcode's bytes all exist, fetch gives its instruction on the two bytes after it (R91 to R93). -/
theorem fetch_of_dispatch {m : OpcodeMap} {s : State} {k : Opcode} (hd : dispatch m (s.mem.read s.pc) = some k)
    (hlen : s.pc + k.length ≤ memSize) :
    s.fetch m = .ok (k.instr (s.mem.read (s.pc + 1)) (s.mem.read (s.pc + 2))) := by
  have hpos : 1 ≤ k.length := by cases k <;> decide
  obtain ⟨hpc, -⟩ | ⟨-, hnone, -⟩ | ⟨j, -, hj, hfetch⟩ := fetch_cases m s
  · omega
  · rw [hd] at hnone; contradiction
  · obtain rfl : k = j := Option.some.inj (hd.symm.trans hj)
    obtain ⟨hl, hpc, -⟩ | ⟨hl, -, hpc, -⟩ | ⟨-, hok⟩ := hfetch
    · omega
    · omega
    · exact hok

/-- The encoding's first byte at the pc dispatches to the instruction's opcode. -/
theorem dispatch_of_bytesAtPc {m : OpcodeMap} {s : State} {i : Instr} (hm : m.Legal)
    (h : BytesAtPc s (encodeWith m i)) : dispatch m (s.mem.read s.pc) = some i.opcode := by
  have hopc : s.mem.read s.pc = opcodeByte m i.opcode := h.2 0 (Nat.succ_pos _)
  rw [hopc, dispatch_opcodeByte hm]

/-- The bytes after the encoding's first are the instruction's operands. -/
theorem instr_of_bytesAtPc {m : OpcodeMap} {s : State} {i : Instr} (h : BytesAtPc s (encodeWith m i)) :
    i.opcode.instr (s.mem.read (s.pc + 1)) (s.mem.read (s.pc + 2)) = i :=
  opcode_instr_of_operands i (fun k => s.mem.read (s.pc + (k + 1))) fun k hk => h.2 (k + 1) (Nat.succ_lt_succ hk)

/-- Fetch gives the instruction whose encoding stands at the pc. -/
theorem fetch_of_bytesAtPc {m : OpcodeMap} {s : State} {i : Instr} (hm : m.Legal)
    (h : BytesAtPc s (encodeWith m i)) : s.fetch m = .ok i := by
  have hlen : s.pc + i.opcode.length ≤ memSize := by simpa only [encodeWith_length] using h.1
  rw [fetch_of_dispatch (dispatch_of_bytesAtPc hm h) hlen, instr_of_bytesAtPc h]

/-- Settles O8: fetch gives the instruction encoded at the pc, and the step is its handler. -/
theorem stepHoldsForEveryOpcodeAssignment : Obligations.StepHoldsForEveryOpcodeAssignment :=
  fun _ hm _ _ hrun hbytes => stepWith_of_fetch_ok hrun (fetch_of_bytesAtPc hm hbytes)

end Machine
end Sys2Proof

/-! ## The register file (R24, R25) -/

namespace Sys2Proof.Machine

open Sys2Proof.Config

/-- After a write to a register, its byte reads the value, and every other byte reads as before: no two bytes name one
register, since none is masked (R25, R72, D3). -/
theorem readReg_set (s : State) (i j : Byte) (v : Byte) (hi : legalIndex i) :
    State.readReg { s with regs := s.regs.set i.toNat v } j = if j = i then .ok v else s.readReg j := by
  by_cases hj : legalIndex j
  · rw [readReg_legal _ j hj, readReg_legal s j hj, Vector.getElem_set]
    simp only [BitVec.toNat_eq, eq_comm (a := i.toNat)]
    split <;> rfl
  · have hne : j ≠ i := fun h => hj (h ▸ hi)
    rw [readReg_illegal _ j hj, readReg_illegal s j hj, if_neg hne]

/-- Settles O34: the legality of the byte decides both ports, and a written register reads back. -/
theorem registerFileReadsBackItsWrites : Obligations.RegisterFileReadsBackItsWrites := by
  intro s i v
  refine ⟨fun h => ?_, fun h => ?_⟩
  · have hi : ¬legalIndex i := (not_legalIndex_iff i).2 h
    exact ⟨readReg_illegal s i hi, writeReg_illegal s i v hi⟩
  · exact ⟨readReg_legal s i h, _, writeReg_legal s i v h, fun j => readReg_set s i j (trunc8 v) h,
      rfl, rfl, rfl, rfl, rfl⟩

/-! ## What each handler answers, once

On legal register bytes `exec` answers the state written here (R110 to R153); otherwise it takes the fault of the first
bad byte (R78). -/

section Completion
variable (s : State) {r a b : Byte}

/-- LDI (R110). -/
@[simp] theorem exec_ldi (imm : Byte) (h : legalIndex r) :
    exec (.ldi r imm) s = .next { s with regs := s.regs.set r.toNat imm, pc := s.pc + 3 } := by
  simp [exec, execLdi, writeReg_legal s r _ h, immediateOperand, State.advance]

/-- PRN (R111). -/
@[simp] theorem exec_prn (h : legalIndex r) :
    exec (.prn r) s = .next { s with out := s.out ++ [s.regs[r.toNat]], pc := s.pc + 2 } := by
  simp [exec, execPrn, readReg_legal s r h, State.emit, State.advance]

/-- HLT (R113). -/
@[simp] theorem exec_hlt : exec .hlt s = .next { s with status := .halted } := rfl

/-- MUL (R123, R127). -/
@[simp] theorem exec_mul (ha : legalIndex a) (hb : legalIndex b) :
    exec (.mul a b) s = .next { s with
      regs := s.regs.set a.toNat (trunc8 ((s.regs[a.toNat].toNat : Int) * s.regs[b.toNat].toNat))
      pc := s.pc + 3 } := by
  simp [exec, execMul, runAlu_legal s .mul a b ha hb, alu]

/-- CMP (R124, R128). -/
@[simp] theorem exec_cmp (ha : legalIndex a) (hb : legalIndex b) :
    exec (.cmp a b) s =
      .next { s with fl := compareFlag s.regs[a.toNat] s.regs[b.toNat], pc := s.pc + 3 } := by
  simp [exec, execCmp, runAlu_legal s .cmp a b ha hb, alu]

/-- The registers as PUSH has them when it reads the one to store: SP is decremented (R141, D25). -/
def State.pushRegs (s : State) : Vector Byte numRegs :=
  s.regs.set spIndex (trunc8 ((s.regs[spIndex].toNat : Int) - 1))

/-- The registers as POP has them before it increments SP: the cell at SP is loaded (R142, D25). -/
def State.popRegs (s : State) (r : Byte) (h : legalIndex r) : Vector Byte numRegs :=
  s.regs.set r.toNat (s.mem.read s.regs[spIndex].toNat)

/-- PUSH (R141). -/
@[simp] theorem exec_push (h : legalIndex r) :
    exec (.push r) s = .next { s with
      regs := s.pushRegs
      mem := s.mem.write s.pushRegs[spIndex].toNat s.pushRegs[r.toNat]
      pc := s.pc + 2 } := by
  simp [exec, execPush, registerOperand_legal r h, readReg_legal _ r h, memWrite_byte, State.sp, State.writeSp,
    State.pushRegs, State.advance]

/-- POP (R142). -/
@[simp] theorem exec_pop (h : legalIndex r) :
    exec (.pop r) s = .next { s with
      regs := (s.popRegs r h).set spIndex (trunc8 (((s.popRegs r h)[spIndex].toNat : Int) + 1))
      pc := s.pc + 2 } := by
  simp [exec, execPop, registerOperand_legal r h, writeReg_legal _ r _ h, memRead_byte, State.sp, State.writeSp,
    State.popRegs, State.advance]

/-- JMP (R151). -/
@[simp] theorem exec_jmp (h : legalIndex r) :
    exec (.jmp r) s = .next { s with pc := s.regs[r.toNat].toNat } := by
  simp [exec, execJmp, jumpIf_legal s true r h]

/-- JEQ (R152). -/
@[simp] theorem exec_jeq (h : legalIndex r) :
    exec (.jeq r) s = .next { s with pc := if s.fl = .equal then s.regs[r.toNat].toNat else s.pc + 2 } := by
  simp [exec, execJeq, jumpIf_legal s _ r h, Flag.jeqTaken]

/-- JNE (R153, R154). -/
@[simp] theorem exec_jne (h : legalIndex r) :
    exec (.jne r) s = .next { s with pc := if s.fl ≠ .equal then s.regs[r.toNat].toNat else s.pc + 2 } := by
  simp [exec, execJne, jumpIf_legal s _ r h, Flag.jneTaken]

end Completion

/-- An ill-formed instruction takes the fault of one of its own bytes, which one being the same in every state (R78). -/
theorem exec_illFormed {i : Instr} (hi : i.wellFormed = false) :
    ∃ b : Byte, ¬legalIndex b ∧ ∀ s, exec i s = .next (faultedAt s .registerIndex b.toNat) := by
  cases i with
  | hlt => exact absurd hi (by decide)
  | ldi r _ | prn r | push r | pop r | jmp r | jeq r | jne r =>
    have hr : ¬legalIndex r := of_decide_eq_false hi
    refine ⟨r, hr, fun s => ?_⟩
    simp [exec, execLdi, execPrn, execPush, execPop, execJmp, execJeq, execJne, registerOperand_illegal r hr,
      readReg_illegal s r hr, writeReg_illegal s r _ hr, jumpIf_illegal s _ r hr, State.takeFault, faultedAt]
  | mul a b | cmp a b =>
    by_cases ha : legalIndex a
    · have hb : ¬legalIndex b := by simpa [Instr.wellFormed, ha] using hi
      refine ⟨b, hb, fun s => ?_⟩
      simp [exec, execMul, execCmp, runAlu_illegal_second s _ a b ha hb, State.takeFault, faultedAt]
    · refine ⟨a, ha, fun s => ?_⟩
      simp [exec, execMul, execCmp, runAlu_illegal_first s _ a b ha, State.takeFault, faultedAt]

/-! ## The next pc (R29) -/

/-- Settles O37: an ill-formed instruction takes its fault, and a well-formed one answers the state its equation names. -/
theorem nextPcOfEachInstruction : Obligations.NextPcOfEachInstruction := by
  intro i s t h
  refine ⟨fun hi => ?_, fun hi => ?_⟩
  · obtain ⟨b, -, hfault⟩ := exec_illFormed hi
    cases (hfault s).symm.trans h
    rfl
  cases i with
  | hlt =>
    cases h
    rfl
  | mul a b | cmp a b =>
    obtain ⟨ha, hb⟩ : legalIndex a ∧ legalIndex b := by simpa [Instr.wellFormed] using hi
    simp only [exec_mul, exec_cmp, ha, hb, Host.Outcome.next.injEq] at h
    simp [← h]
  | ldi r _ | prn r | push r | pop r =>
    have hr : legalIndex r := of_decide_eq_true hi
    simp only [exec_ldi, exec_prn, exec_push, exec_pop, hr, Host.Outcome.next.injEq] at h
    simp [← h]
  | jmp r | jeq r | jne r =>
    have hr : legalIndex r := of_decide_eq_true hi
    have hbyte : (s.regs[r.toNat]).toNat ≤ 255 := Nat.le_of_lt_succ (s.regs[r.toNat]).isLt
    simp only [exec_jmp, exec_jeq, exec_jne, hr, Host.Outcome.next.injEq] at h
    by_cases hf : s.fl = .equal <;> simp [← h, hf, readReg_legal s r hr, hbyte]

/-! ## The flag (R31) -/

/-- An instruction other than CMP keeps FL, and another FL value makes no difference to it, if JEQ and JNE find that
value EQUAL or not as before. -/
theorem exec_passes_fl {i : Instr} {s t : State} (h : exec i s = .next t) (hc : i.opcode ≠ .cmp) :
    t.fl = s.fl ∧ ∀ f, (i.opcode = .jeq ∨ i.opcode = .jne → (f = .equal ↔ s.fl = .equal)) →
      exec i { s with fl := f } = .next { t with fl := f } := by
  cases hi : i.wellFormed with
  | false =>
    obtain ⟨b, -, hfault⟩ := exec_illFormed hi
    cases (hfault s).symm.trans h
    exact ⟨rfl, fun f _ => hfault _⟩
  | true =>
    cases i with
    | hlt =>
      cases h
      exact ⟨rfl, fun f _ => rfl⟩
    | cmp a b => exact absurd rfl hc
    | mul a b =>
      obtain ⟨ha, hb⟩ : legalIndex a ∧ legalIndex b := by simpa [Instr.wellFormed] using hi
      cases (exec_mul s ha hb).symm.trans h
      exact ⟨rfl, fun f _ => exec_mul _ ha hb⟩
    | ldi r _ | prn r | push r | pop r | jmp r =>
      have hr : legalIndex r := of_decide_eq_true hi
      simp only [exec_ldi, exec_prn, exec_push, exec_pop, exec_jmp, hr, Host.Outcome.next.injEq] at h ⊢
      subst h
      exact ⟨rfl, fun f _ => rfl⟩
    | jeq r | jne r =>
      have hr : legalIndex r := of_decide_eq_true hi
      simp only [exec_jeq, exec_jne, hr, Host.Outcome.next.injEq] at h ⊢
      subst h
      refine ⟨rfl, fun f hf => ?_⟩
      have hEqual : f = .equal ↔ s.fl = .equal := hf (by simp [Instr.opcode])
      simp only [hEqual, ne_eq]

/-- A well-formed CMP sets FL to a comparison's value, and to the same one whatever FL was. -/
theorem exec_cmp_sets_fl {a b : Byte} {s t : State} (ha : legalIndex a) (hb : legalIndex b)
    (h : exec (.cmp a b) s = .next t) :
    t.fl ≠ .unset ∧ ∀ f, exec (.cmp a b) { s with fl := f } = .next t := by
  cases (exec_cmp s ha hb).symm.trans h
  refine ⟨?_, fun f => exec_cmp _ ha hb⟩
  obtain ⟨-, hf⟩ | ⟨-, hf⟩ | ⟨-, hf⟩ := compareFlag_cases s.regs[a.toNat] s.regs[b.toNat] <;> simp [hf]

/-- Settles O38: CMP replaces FL, and every other instruction passes it on. -/
theorem flagIsWrittenByCmpAndReadByJeqJne : Obligations.FlagIsWrittenByCmpAndReadByJeqJne := by
  intro i s t h
  refine ⟨fun hc => (exec_passes_fl h hc).1, fun hc hi => ?_, fun hc hjeq hjne f => ?_, fun hj f hf => ?_⟩
  · cases i with
    | cmp a b =>
      obtain ⟨ha, hb⟩ : legalIndex a ∧ legalIndex b := by simpa [Instr.wellFormed] using hi
      exact exec_cmp_sets_fl ha hb h
    | _ => cases hc
  · exact (exec_passes_fl h hc).2 f fun hj => (hj.elim hjeq hjne).elim
  · have hc : i.opcode ≠ .cmp := by rcases hj with hj | hj <;> simp [hj]
    exact (exec_passes_fl h hc).2 f fun _ => hf

/-! ## The output trace (R34, R112) -/

/-- From `s`, `run` answers `t` by appending `new` to the output trace, and with any other trace it appends the same
and ends the same otherwise. -/
def AppendsOut (run : State → Host.Outcome State Fault Refusal) (s t : State) (new : List Byte) : Prop :=
  t.out = s.out ++ new ∧ ∀ o, run { s with out := o } = .next { t with out := o ++ new }

/-- Appending nothing is keeping the trace. -/
theorem appendsOut_nil {run : State → Host.Outcome State Fault Refusal} {s t : State} :
    AppendsOut run s t [] ↔ t.out = s.out ∧ ∀ o, run { s with out := o } = .next { t with out := o } := by
  simp only [AppendsOut, List.append_nil]

/-- A PRN of a legal register appends that register's byte. -/
theorem exec_prn_appends {r : Byte} {s t : State} (hr : legalIndex r) (h : exec (.prn r) s = .next t) :
    AppendsOut (exec (.prn r)) s t [s.regs[r.toNat]] := by
  cases (exec_prn s hr).symm.trans h
  exact ⟨rfl, fun o => exec_prn _ hr⟩

/-- An instruction that is ill-formed or no PRN appends nothing. -/
theorem exec_appends_nothing {i : Instr} {s t : State} (h : exec i s = .next t)
    (hp : i.wellFormed = true → i.opcode ≠ .prn) : AppendsOut (exec i) s t [] := by
  rw [appendsOut_nil]
  cases hi : i.wellFormed with
  | false =>
    obtain ⟨b, -, hfault⟩ := exec_illFormed hi
    cases (hfault s).symm.trans h
    exact ⟨rfl, fun o => hfault _⟩
  | true =>
    cases i with
    | hlt =>
      cases h
      exact ⟨rfl, fun o => rfl⟩
    | prn r => exact absurd rfl (hp hi)
    | mul a b | cmp a b =>
      obtain ⟨ha, hb⟩ : legalIndex a ∧ legalIndex b := by simpa [Instr.wellFormed] using hi
      simp only [exec_mul, exec_cmp, ha, hb, Host.Outcome.next.injEq] at h ⊢
      subst h
      exact ⟨rfl, fun o => rfl⟩
    | ldi r _ | push r | pop r | jmp r | jeq r | jne r =>
      have hr : legalIndex r := of_decide_eq_true hi
      simp only [exec_ldi, exec_push, exec_pop, exec_jmp, exec_jeq, exec_jne, hr, Host.Outcome.next.injEq] at h ⊢
      subst h
      exact ⟨rfl, fun o => rfl⟩

/-- An instruction appends nothing, or it is a PRN and appends one byte. -/
theorem exec_appends {i : Instr} {s t : State} (h : exec i s = .next t) :
    AppendsOut (exec i) s t [] ∨ i.opcode = .prn ∧ ∃ v, AppendsOut (exec i) s t [v] := by
  by_cases hp : i.wellFormed = true → i.opcode ≠ .prn
  · exact .inl (exec_appends_nothing h hp)
  · obtain ⟨hi, hop⟩ : i.wellFormed = true ∧ i.opcode = .prn := by simpa using hp
    cases i with
    | prn r => exact .inr ⟨rfl, _, exec_prn_appends (of_decide_eq_true hi) h⟩
    | _ => cases hop

/-- A fetched instruction's opcode is the one dispatched at the pc. -/
theorem dispatch_of_fetch_ok {m : OpcodeMap} {s : State} {i : Instr} (h : s.fetch m = .ok i) :
    dispatch m (s.mem.read s.pc) = some i.opcode := by
  obtain ⟨-, he⟩ | ⟨-, -, he⟩ | ⟨k, -, hk, ⟨-, -, he⟩ | ⟨-, -, -, he⟩ | ⟨-, hok⟩⟩ := fetch_cases m s
  · cases he.symm.trans h
  · cases he.symm.trans h
  · cases he.symm.trans h
  · cases he.symm.trans h
  · cases hok.symm.trans h
    rw [hk, opcode_of_instr]

/-- The fetch does not look at the output trace. -/
theorem fetch_with_out (m : OpcodeMap) (s : State) (o : List Byte) : State.fetch m { s with out := o } = s.fetch m := rfl

/-- A step appends what the fetched instruction appends. -/
theorem stepWith_appends_of_fetch_ok {m : OpcodeMap} {s t : State} {i : Instr} {new : List Byte}
    (hrun : s.status = .running) (hf : s.fetch m = .ok i) (h : AppendsOut (exec i) s t new) :
    AppendsOut (stepWith m) s t new := by
  obtain ⟨hout, hany⟩ := h
  refine ⟨hout, fun o => ?_⟩
  have hfo : State.fetch m { s with out := o } = .ok i := (fetch_with_out m s o).trans hf
  exact (stepWith_of_fetch_ok (s := { s with out := o }) hrun hfo).trans (hany o)

/-- A step appends nothing, or a PRN stands at the pc and one byte is appended. -/
theorem stepWith_appends {m : OpcodeMap} {s t : State} (h : stepWith m s = .next t) :
    AppendsOut (stepWith m) s t [] ∨
      dispatch m (s.mem.read s.pc) = some .prn ∧ ∃ v, AppendsOut (stepWith m) s t [v] := by
  obtain ⟨hrun, ⟨i, hf, hexec⟩ | ⟨e, hf, rfl⟩⟩ := stepWith_cases h
  · obtain hnone | ⟨hprn, v, hv⟩ := exec_appends hexec
    · exact .inl (stepWith_appends_of_fetch_ok hrun hf hnone)
    · exact .inr ⟨hprn ▸ dispatch_of_fetch_ok hf, v, stepWith_appends_of_fetch_ok hrun hf hv⟩
  · exact .inl (appendsOut_nil.2 ⟨rfl, fun o => stepWith_of_fetch_error hrun ((fetch_with_out m s o).trans hf)⟩)

/-- Settles O40: the two cases of `stepWith_appends` under the default opcode bytes. -/
theorem outputOnlyGrowsAndIsNeverRead : Obligations.OutputOnlyGrowsAndIsNeverRead := by
  intro s t h
  obtain hnone | ⟨hprn, v, hv⟩ := stepWith_appends h
  · exact ⟨.inl (appendsOut_nil.1 hnone).1, fun o => ⟨[], hnone.1, hnone.2 o⟩⟩
  · exact ⟨.inr ⟨hprn, v, hv.1⟩, fun o => ⟨[v], hv.1, hv.2 o⟩⟩

end Sys2Proof.Machine

/-! ## Memory (R51, R52) -/

namespace Sys2Proof.Machine

open Sys2Proof.Config

/-- After the cell of an existing address is written, a read answers the byte there and is as before at every other
address, those that do not exist included. -/
theorem memRead_write (s : State) (a b : Nat) (v : Byte) (ha : a < memSize) :
    State.memRead { s with mem := s.mem.write a v } b = if b = a then .ok v else s.memRead b := by
  by_cases hb : b < memSize
  · simp only [memRead_inside _ b hb, read_write, apply_ite Except.ok]
  · have hne : b ≠ a := fun h => hb (h ▸ ha)
    simp only [memRead_outside _ b (Nat.le_of_not_lt hb), hne, if_false]

/-- Settles O35: an address exists, and `memRead_write` says what a write to it changes, or both accesses raise. -/
theorem memoryReadsBackItsWrites : Obligations.MemoryReadsBackItsWrites := by
  refine fun s a v => ⟨fun h => ⟨memRead_outside s a h, memWrite_outside s a v h⟩, fun h => ?_⟩
  have ha : a < memSize := Nat.lt_succ_of_le h
  exact ⟨memRead_inside s a ha, _, memWrite_inside s a v ha, fun b => memRead_write s a b (trunc8 v) ha,
    rfl, rfl, rfl, rfl, rfl⟩

end Sys2Proof.Machine

/-! ## The dispatcher and the operand bytes (R70, R71, R75) -/

namespace Sys2Proof

open Sys2Proof.Config

/-- Under a legal assignment a byte dispatches to an opcode exactly when it is that opcode's whole byte (R75). -/
theorem dispatch_eq_some {m : OpcodeMap} (hm : m.Legal) {b : Byte} {k : Opcode} :
    dispatch m b = some k ↔ opcodeByte m k = b :=
  ⟨dispatch_byte, fun h => h ▸ dispatch_opcodeByte hm k⟩

/-- Under a legal assignment the bytes after an opcode's byte are read as that opcode's operands. -/
theorem decodeWith_opcodeByte {m : OpcodeMap} (hm : m.Legal) (k : Opcode) (rest : List Byte) :
    decodeWith m (opcodeByte m k :: rest) = takeOperands k rest := by
  simp only [decodeWith, dispatch_opcodeByte hm k]

/-- Where the bytes an opcode's length calls for are there, its operands are taken from them, and exactly those bytes
are consumed, whatever they are (R70, R71, R79). -/
theorem takeOperands_of_length_le {k : Opcode} {rest : List Byte} (h : k.length ≤ rest.length + 1) :
    ∃ a b, takeOperands k rest = .ok (k.instr a b, rest.drop (k.length - 1)) := by
  unfold Opcode.length at h ⊢
  unfold takeOperands
  cases hf : k.format with
  | n => exact ⟨0, 0, rfl⟩
  | r =>
    match rest, hf ▸ h with
    | a :: _, _ => exact ⟨a, 0, rfl⟩
  | rr | ri =>
    match rest, hf ▸ h with
    | a :: b :: _, _ => exact ⟨a, b, rfl⟩

/-- Settles O3: `dispatch_eq_some` and `dispatch_eq_none` say what the dispatcher answers, and the operands are those
of the opcode it answers with. -/
theorem dispatchMatchesWholeOpcodeByte : Obligations.DispatchMatchesWholeOpcodeByte := by
  refine fun m hm => ⟨fun b k => dispatch_eq_some hm, fun b => dispatch_eq_none, fun k rest hlen => ?_⟩
  obtain ⟨a, b, htake⟩ := takeOperands_of_length_le hlen
  exact ⟨k.instr a b, opcode_of_instr k a b, (decodeWith_opcodeByte hm k rest).trans htake⟩

end Sys2Proof

/-! ## When a handler faults (R78) -/

namespace Sys2Proof.Machine

/-- A well-formed instruction completes: HLT halts, and any other leaves the status as it was. -/
theorem exec_wellFormed_status {i : Instr} (s : State) (hi : i.wellFormed = true) :
    ∃ t, exec i s = .next t ∧ t.status = if i = .hlt then .halted else s.status := by
  cases i with
  | hlt => exact ⟨_, exec_hlt s, rfl⟩
  | mul a b | cmp a b =>
    obtain ⟨ha, hb⟩ : legalIndex a ∧ legalIndex b := by simpa [Instr.wellFormed] using hi
    simp [ha, hb]
  | ldi r _ | prn r | push r | pop r | jmp r | jeq r | jne r =>
    have hr : legalIndex r := of_decide_eq_true hi
    simp [hr]

/-- A handler that turns a Running state into a Faulted one is of an ill-formed instruction. -/
theorem illFormed_of_exec_faults {i : Instr} {s t : State} {c : FaultCause} {f n : Nat} (hrun : s.status = .running)
    (h : exec i s = .next t) (hfault : t.status = .faulted c f n) : i.wellFormed = false := by
  refine Bool.eq_false_iff.2 fun hi => ?_
  obtain ⟨u, hu, hstatus⟩ := exec_wellFormed_status s hi
  cases hu.symm.trans h
  rw [hfault, hrun] at hstatus
  split at hstatus <;> cases hstatus

/-- Settles O32: a fault comes from an ill-formed instruction, and that one takes the fault of a byte above 7. -/
theorem handlerFaultsExactlyOnABadRegisterByte : Obligations.HandlerFaultsExactlyOnABadRegisterByte := by
  refine fun i s hrun => ⟨⟨fun ⟨t, c, f, n, h, hfault⟩ => illFormed_of_exec_faults hrun h hfault, fun hi => ?_⟩,
    fun t c f n h hfault => ?_, fun r imm imm' => rfl⟩
  · obtain ⟨b, -, hexec⟩ := exec_illFormed hi
    exact ⟨_, _, _, _, hexec s, rfl⟩
  · obtain ⟨b, hb, hexec⟩ := exec_illFormed (illFormed_of_exec_faults hrun h hfault)
    cases (hexec s).symm.trans h
    cases hfault
    exact ⟨rfl, (not_legalIndex_iff b).1 hb, Nat.le_of_lt_succ b.isLt⟩

end Sys2Proof.Machine

/-! ## Fetching and decoding (R91 to R93), and which states have a step (R95, R96) -/

namespace Sys2Proof

open Sys2Proof.Config

/-- The bytes after a dispatched opcode byte are read as that opcode's operands. -/
theorem decodeWith_of_dispatch {m : OpcodeMap} {b : Byte} {k : Opcode} (h : dispatch m b = some k) (rest : List Byte) :
    decodeWith m (b :: rest) = takeOperands k rest := by
  simp only [decodeWith, h]

/-- A byte with no table entry is refused, whatever follows it. -/
theorem decodeWith_of_unlisted {m : OpcodeMap} {b : Byte} (h : dispatch m b = none) (rest : List Byte) :
    decodeWith m (b :: rest) = .error (.unknownOpcode b) := by
  simp only [decodeWith, h]

/-- An opcode that has operands misses the first one where no byte follows it. -/
theorem takeOperands_nil {k : Opcode} (h : 2 ≤ k.length) : takeOperands k [] = .error (.missingOperand 1) := by
  cases k with
  | hlt => exact absurd h (by decide)
  | _ => rfl

/-- An opcode of three bytes misses its second operand where one byte follows it. -/
theorem takeOperands_singleton {k : Opcode} (h : k.length = 3) (a : Byte) :
    takeOperands k [a] = .error (.missingOperand 2) := by
  cases k with
  | ldi | mul | cmp => rfl
  | _ => exact absurd h (by decide)

/-- Where the first `n` of the bytes `byte 0`, `byte 1`, … are all an opcode calls for, they make its instruction. -/
theorem takeOperands_range {k : Opcode} (byte : Nat → Byte) {n : Nat} (h : k.length ≤ n + 1) :
    ∃ rest, takeOperands k ((List.range n).map byte) = .ok (k.instr (byte 0) (byte 1), rest) := by
  cases k with
  | hlt => exact ⟨_, rfl⟩
  | prn | push | pop | jmp | jeq | jne =>
    obtain ⟨j, rfl⟩ : ∃ j, n = j + 1 := Nat.exists_eq_add_of_le' (Nat.le_of_succ_le_succ h)
    rw [List.range_succ_eq_map]
    exact ⟨_, rfl⟩
  | ldi | mul | cmp =>
    obtain ⟨j, rfl⟩ : ∃ j, n = j + 2 := Nat.exists_eq_add_of_le' (Nat.le_of_succ_le_succ h)
    rw [List.range_succ_eq_map, List.range_succ_eq_map]
    exact ⟨_, rfl⟩

namespace Machine

/-- The bytes a step can fetch are the first of those from the pc on, as many as exist and no more than three. -/
theorem codeBytes_eq_range (s : State) :
    s.codeBytes = (List.range (min maxLength (memSize - s.pc))).map fun j => s.mem.read (s.pc + j) := by
  have hexists : ∀ j, decide (s.pc + j < memSize) = decide (j < memSize - s.pc) := fun j =>
    decide_eq_decide.2 (by omega)
  have hrange : (List.range maxLength).filter (fun j => j < memSize - s.pc) =
      List.range (min maxLength (memSize - s.pc)) := by
    simpa only [List.Ico.zero_bot] using List.Ico.filter_lt 0 maxLength (memSize - s.pc)
  simp only [State.codeBytes, List.filter_map, List.map_map, Function.comp_def, hexists, hrange]

/-- No byte can be fetched from above the last address. -/
theorem codeBytes_of_memSize_le {s : State} (h : memSize ≤ s.pc) : s.codeBytes = [] := by
  rw [codeBytes_eq_range, Nat.sub_eq_zero_of_le h]
  rfl

/-- The operand bytes a step can fetch: those at pc+1 and pc+2 that exist (R93). -/
def State.operandBytes (s : State) : List Byte :=
  (List.range (min (maxLength - 1) (memSize - (s.pc + 1)))).map fun j => s.mem.read (s.pc + (j + 1))

/-- At an existing pc the first byte a step can fetch is the one there, and the operand bytes follow it. -/
theorem codeBytes_eq_cons {s : State} (h : s.pc < memSize) :
    s.codeBytes = s.mem.read s.pc :: s.operandBytes := by
  have hcount : min maxLength (memSize - s.pc) = min (maxLength - 1) (memSize - (s.pc + 1)) + 1 := by
    unfold maxLength; omega
  rw [codeBytes_eq_range, hcount, List.range_succ_eq_map, List.map_cons, List.map_map]
  rfl

/-- No operand byte follows the last address. -/
theorem operandBytes_of_memSize_le {s : State} (h : memSize ≤ s.pc + 1) : s.operandBytes = [] := by
  rw [State.operandBytes, Nat.sub_eq_zero_of_le h]
  rfl

/-- One operand byte follows the last address but one. -/
theorem operandBytes_of_eq {s : State} (h : s.pc + 2 = memSize) : s.operandBytes = [s.mem.read (s.pc + 1)] := by
  have hcount : memSize - (s.pc + 1) = 1 := by omega
  rw [State.operandBytes, hcount]
  rfl

/-- Where an opcode's bytes all exist, the operand bytes make its instruction of the two bytes after the pc, as far as
it reads them. -/
theorem takeOperands_operandBytes {s : State} {k : Opcode} (h : s.pc + k.length ≤ memSize) :
    ∃ rest, takeOperands k s.operandBytes = .ok (k.instr (s.mem.read (s.pc + 1)) (s.mem.read (s.pc + 2)), rest) := by
  have hmax : k.length ≤ maxLength := by cases k <;> decide
  exact takeOperands_range (fun j => s.mem.read (s.pc + (j + 1))) (by omega)

/-- Settles O7: in each case of `fetch_cases` the existing bytes at the pc are written out, and decoding them answers
what the fetch does. -/
theorem fetchIsDecodeOfCodeBytes : Obligations.FetchIsDecodeOfCodeBytes := by
  intro m s
  obtain ⟨hpc, hf⟩ | ⟨hpc, hd, hf⟩ | ⟨k, hpc, hd, hk⟩ := fetch_cases m s
  · rw [hf, codeBytes_of_memSize_le hpc]
    rfl
  · rw [hf, codeBytes_eq_cons hpc, decodeWith_of_unlisted hd]
  · rw [codeBytes_eq_cons hpc, decodeWith_of_dispatch hd]
    obtain ⟨hl, hpc1, hf⟩ | ⟨hl, hpc1, hpc2, hf⟩ | ⟨hlen, hf⟩ := hk
    · rw [hf, operandBytes_of_memSize_le hpc1, takeOperands_nil hl]
    · rw [hf, operandBytes_of_eq (Nat.le_antisymm hpc1 hpc2), takeOperands_singleton hl]
    · obtain ⟨rest, htake⟩ := takeOperands_operandBytes hlen
      rw [hf, htake]

/-- A handler answers a next state, whatever its instruction's operand bytes are. -/
theorem exec_next (i : Instr) (s : State) : ∃ t, exec i s = .next t := by
  cases hi : i.wellFormed with
  | false =>
    obtain ⟨b, -, hfault⟩ := exec_illFormed hi
    exact ⟨_, hfault s⟩
  | true =>
    obtain ⟨t, hexec, -⟩ := exec_wellFormed_status s hi
    exact ⟨t, hexec⟩

/-- While Running, the step answers a next state: the handler's, or the one that takes the fetch's fault (R95). -/
theorem stepWith_next_of_running (m : OpcodeMap) {s : State} (hrun : s.status = .running) :
    ∃ t, stepWith m s = .next t := by
  cases hf : s.fetch m with
  | ok i => rw [stepWith_of_fetch_ok hrun hf]; exact exec_next i s
  | error e => exact ⟨_, stepWith_of_fetch_error hrun hf⟩

/-- Settles O12: only a Running state has a step, and `stepWith_next_of_running` gives it one. -/
theorem stepExistsExactlyWhileRunning : Obligations.StepExistsExactlyWhileRunning :=
  fun _ => ⟨fun ⟨_, h⟩ => (stepWith_cases h).1, stepWith_next_of_running defaultOpcodes⟩

/-- The fetch of a byte with no table entry raises UnknownOpcode of that byte (R92). -/
theorem fetch_of_unlisted {m : OpcodeMap} {s : State} (hpc : s.pc < memSize)
    (hd : dispatch m (s.mem.read s.pc) = none) :
    s.fetch m = .error ⟨.unknownOpcode, (s.mem.read s.pc).toNat⟩ := by
  simp [State.fetch, memRead_inside s _ hpc, hd]

/-- Settles O10: the dispatcher answers `unknown`, and the step takes the fault the fetch raises. -/
theorem unlistedByteRaisesUnknownOpcode : Obligations.UnlistedByteRaisesUnknownOpcode :=
  fun _ _ hrun hpc hbyte =>
    stepWith_of_fetch_error hrun (fetch_of_unlisted (Nat.lt_succ_of_le hpc) (dispatch_eq_none.2 hbyte))

end Machine
end Sys2Proof

/-! ## LDI, PRN and HLT (R110, R111, R113) -/

namespace Sys2Proof.Machine

open Sys2Proof.Config

/-- A first operand byte above 7 is the one the handler faults for, whatever follows it (R78, R165). -/
theorem exec_illegal_first {i : Instr} {r : Byte} (hop : i.operands.head? = some r) (hr : ¬legalIndex r) (s : State) :
    exec i s = .next (faultedAt s .registerIndex r.toNat) := by
  cases i with
  | hlt => cases hop
  | ldi | prn | push | pop | jmp | jeq | jne =>
    cases hop
    simp [exec, execLdi, execPrn, execPush, execPop, execJmp, execJeq, execJne, registerOperand_illegal r hr,
      readReg_illegal s r hr, writeReg_illegal s r _ hr, jumpIf_illegal s _ r hr, State.takeFault, faultedAt]
  | mul _ b | cmp _ b =>
    cases hop
    simp [exec, execMul, execCmp, runAlu_illegal_first s _ r b hr, State.takeFault, faultedAt]

/-- Where a listed opcode stands at an existing pc and its bytes do not all exist, the step faults at the first address
above memory (R93). -/
theorem stepWith_of_operand_missing {m : OpcodeMap} {s : State} {k : Opcode} (hrun : s.status = .running)
    (hd : dispatch m (s.mem.read s.pc) = some k) (hpc : s.pc < memSize) (hlen : memSize < s.pc + k.length) :
    stepWith m s = .next (faultedAt s .memoryBounds memSize) := by
  refine stepWith_of_fetch_error (e := ⟨.memoryBounds, memSize⟩) hrun ?_
  obtain ⟨hout, -⟩ | ⟨-, hnone, -⟩ | ⟨j, -, hj, hfetch⟩ := fetch_cases m s
  · exact absurd hpc (Nat.not_lt.2 hout)
  · rw [hd] at hnone; contradiction
  · obtain rfl : k = j := Option.some.inj (hd.symm.trans hj)
    obtain ⟨-, hout, he⟩ | ⟨-, hin, hout, he⟩ | ⟨hall, -⟩ := hfetch
    · rwa [show s.pc + 1 = memSize by omega] at he
    · rwa [show s.pc + 2 = memSize by omega] at he
    · exact absurd hlen (Nat.not_lt.2 hall)

/-- A write to one register leaves the others as they were. -/
theorem sameRegsBut_of_set {s t : State} {n : Nat} {v : Byte} (hn : n < numRegs)
    (ht : t.regs = s.regs.set n v) : SameRegsBut n s t := by
  intro j hj
  simp only [ht, Fin.getElem_fin]
  exact Vector.getElem_set_ne hn j.isLt (Ne.symm hj)

/-- Settles O21: LDI's equation and its fault, and the two addresses where an operand byte is missing. -/
theorem ldiLoadsItsImmediate : Obligations.LdiLoadsItsImmediate := by
  refine fun r imm s => ⟨fun h => ?_, fun h => ?_, fun m hm => ⟨rfl, fun hrun hb hpc => ?_, fun hrun hb hpc => ?_⟩⟩
  · exact ⟨_, exec_ldi s imm h, Vector.getElem_set_self h, sameRegsBut_of_set h rfl, rfl, fun _ => rfl, rfl, rfl, rfl⟩
  · exact exec_illegal_first rfl ((not_legalIndex_iff r).2 h) s
  all_goals
    have hd : dispatch m (s.mem.read s.pc) = some .ldi := (dispatch_eq_some hm).2 hb.symm
    rw [hpc]
    exact stepWith_of_operand_missing hrun hd (by rw [hpc]; decide) (by rw [hpc]; decide)

/-- Settles O22: PRN's equation and its fault, and the last address, where its operand byte is missing. -/
theorem prnAppendsTheRegister : Obligations.PrnAppendsTheRegister := by
  refine fun r s => ⟨fun h => ?_, fun h => ?_, fun m hm => ⟨rfl, fun hrun hb hpc => ?_⟩⟩
  · exact ⟨_, exec_prn s h, rfl, fun _ => rfl, rfl, fun _ => rfl, rfl, rfl⟩
  · exact exec_illegal_first rfl ((not_legalIndex_iff r).2 h) s
  · have hd : dispatch m (s.mem.read s.pc) = some .prn := (dispatch_eq_some hm).2 hb.symm
    rw [hpc]
    exact stepWith_of_operand_missing hrun hd (by rw [hpc]; decide) (by rw [hpc]; decide)

/-- A state that is not Running has no step (R96). -/
theorem stepWith_ne_next_of_final {m : OpcodeMap} {s : State} (h : s.Final) (t : State) : stepWith m s ≠ .next t :=
  fun hstep => h (stepWith_cases hstep).1

/-- Settles O23: HLT's one byte is all its fetch reads, and the halted state is final. -/
theorem hltHaltsInPlace : Obligations.HltHaltsInPlace := by
  refine fun s => ⟨_, exec_hlt s, rfl, rfl, fun _ => rfl, fun _ => rfl, rfl, rfl, fun m hm => ⟨rfl, ?_, ?_⟩⟩
  · exact stepWith_ne_next_of_final fun hrunning => by cases hrunning
  · intro hrun hb hpc
    have hd : dispatch m (s.mem.read s.pc) = some .hlt := (dispatch_eq_some hm).2 hb.symm
    exact stepWith_of_fetch_ok hrun (fetch_of_dispatch hd (Nat.succ_le_succ hpc))

end Sys2Proof.Machine

/-! ## Printing the output trace (R114) -/

namespace Sys2Proof.Machine

/-- The value of a text of decimal digits, most significant digit first. -/
def decimalValue (digits : List Char) : Nat := digits.foldl (fun n c => 10 * n + (c.toNat - '0'.toNat)) 0

/-- The text is the number in decimal: digits only, at least one, no leading zero but that of `0` itself. -/
def IsDecimal (n : Nat) (digits : List Char) : Prop :=
  digits ≠ [] ∧ (∀ c ∈ digits, '0' ≤ c ∧ c ≤ '9') ∧ (digits.head? = some '0' → digits = ['0']) ∧
    decimalValue digits = n

/-- A digit's character is as far from `0` as its value says, and no further than `9`. -/
theorem decimalDigit_spec {d : Nat} (hd : d < 10) :
    ('0' ≤ decimalDigit d ∧ decimalDigit d ≤ '9') ∧ (decimalDigit d).toNat - '0'.toNat = d := by
  revert d
  decide

/-- One digit is its own value in decimal. -/
theorem isDecimal_singleton {d : Nat} (hd : d < 10) : IsDecimal d [decimalDigit d] := by
  obtain ⟨hrange, hvalue⟩ := decimalDigit_spec hd
  refine ⟨List.cons_ne_nil _ _, by simpa using hrange, fun h0 => ?_, ?_⟩
  · rw [Option.some.inj h0]
  · simpa [decimalValue] using hvalue

/-- From ten on, a number's text is that of its tens and then its last digit. -/
theorem isDecimal_append_last {n : Nat} {digits : List Char} (h : IsDecimal (n / 10) digits) (hn : 10 ≤ n) :
    IsDecimal n (digits ++ [decimalDigit (n % 10)]) := by
  obtain ⟨hne, hdigits, hzero, hvalue⟩ := h
  obtain ⟨hrange, hlast⟩ := decimalDigit_spec (Nat.mod_lt n (by decide))
  refine ⟨by simp, fun c hc => ?_, fun h0 => ?_, ?_⟩
  · rcases List.mem_append.1 hc with hc | hc
    · exact hdigits c hc
    · rw [List.mem_singleton.1 hc]
      exact hrange
  · rw [List.head?_append_of_ne_nil _ hne] at h0
    have htens : decimalValue digits = 0 := by rw [hzero h0]; rfl
    omega
  · unfold decimalValue at hvalue ⊢
    rw [List.foldl_append, hvalue, List.foldl_cons, hlast, List.foldl_nil, Nat.div_add_mod]

/-- A byte's text is its value in decimal, whether it has one digit, two or three. -/
theorem renderByte_isDecimal (v : Byte) : IsDecimal v.toNat (renderByte v) := by
  have hv : v.toNat < 256 := v.isLt
  simp only [renderByte]
  split
  · exact isDecimal_singleton ‹_›
  · have hten : 10 ≤ v.toNat := by omega
    split
    · exact isDecimal_append_last (isDecimal_singleton (by omega)) hten
    · have htens : IsDecimal (v.toNat / 10) ([decimalDigit (v.toNat / 10 / 10)] ++ [decimalDigit (v.toNat / 10 % 10)]) :=
        isDecimal_append_last (isDecimal_singleton (by omega)) (by omega)
      rw [Nat.div_div_eq_div_mul] at htens
      exact isDecimal_append_last htens hten

/-- Settles O54: the text of each byte is its decimal digits and a newline. -/
theorem outputIsPrintedInDecimal : Obligations.OutputIsPrintedInDecimal := by
  refine ⟨rfl, fun v out => ⟨renderByte v, ?_, renderByte_isDecimal v⟩⟩
  simp [renderOut]

end Sys2Proof.Machine

/-! ## The ALU, MUL and CMP (R121 to R124, R127, R128) -/

namespace Sys2Proof.Machine

open Sys2Proof.Config

/-- The truncated product of two values is the low byte of the exact product (R123). -/
theorem trunc8_mul_toNat (m n : Nat) : (trunc8 ((m : Int) * n)).toNat = m * n % 256 :=
  mod_cast trunc8_natCast_toNat (m * n)

/-- Each flag is the comparison's answer in exactly its own case, and Unset is never the answer (R124). -/
theorem compareFlag_spec (a b : Byte) :
    (compareFlag a b = .equal ↔ a.toNat = b.toNat) ∧ (compareFlag a b = .greater ↔ b.toNat < a.toNat) ∧
      (compareFlag a b = .less ↔ a.toNat < b.toNat) ∧ compareFlag a b ≠ .unset := by
  obtain ⟨h, hf⟩ | ⟨h, hf⟩ | ⟨h, hf⟩ := compareFlag_cases a b
  · simp [hf, h]
  · simp [hf, h, h.ne', h.le]
  · simp [hf, h, h.ne, h.le]

/-- Settles O33: ADD, SUB and MUL truncate the exact value, and CMP answers the flag of the comparison. -/
theorem aluComputesModulo256 : Obligations.AluComputesModulo256 := by
  refine fun a b => ⟨⟨_, rfl, ?_⟩, ⟨_, rfl, ?_⟩, ⟨_, rfl, ?_⟩, ⟨_, rfl, ?_⟩⟩
  · exact mod_cast trunc8_natCast_toNat (a.toNat + b.toNat)
  · exact trunc8_value _
  · exact trunc8_mul_toNat _ _
  · obtain ⟨hequal, hgreater, hless, hset⟩ := compareFlag_spec a b
    exact ⟨hset, hequal, hgreater, hless⟩

/-- MUL and CMP fault for their second register byte where the first one is legal (R127, R128, R165). -/
theorem exec_illegal_second {i : Instr} {a b : Byte} (hi : i = .mul a b ∨ i = .cmp a b) (ha : legalIndex a)
    (hb : ¬legalIndex b) (s : State) : exec i s = .next (faultedAt s .registerIndex b.toNat) := by
  obtain rfl | rfl := hi <;>
    simp [exec, execMul, execCmp, runAlu_illegal_second s _ a b ha hb, State.takeFault, faultedAt]

/-- The step of a three-byte opcode at the last address, and at the one before it, faults at the address of the operand
byte that is missing (R93, R99). -/
theorem stepWith_of_three_bytes_missing {m : OpcodeMap} (hm : m.Legal) {k : Opcode} (hk : k.length = 3) (s : State) :
    (s.status = .running → s.mem.read s.pc = opcodeByte m k → s.pc = 255 →
      stepWith m s = .next (faultedAt s .memoryBounds (s.pc + 1))) ∧
    (s.status = .running → s.mem.read s.pc = opcodeByte m k → s.pc = 254 →
      stepWith m s = .next (faultedAt s .memoryBounds (s.pc + 2))) := by
  refine ⟨fun hrun hb hpc => ?_, fun hrun hb hpc => ?_⟩
  all_goals
    have hd : dispatch m (s.mem.read s.pc) = some k := (dispatch_eq_some hm).2 hb.symm
    rw [hpc]
    exact stepWith_of_operand_missing hrun hd (by rw [hpc]; decide) (by rw [hpc, hk]; decide)

/-- Settles O24: MUL's equation and its two faults, and the two addresses where an operand byte is missing. -/
theorem mulWritesTheLowByteOfTheProduct : Obligations.MulWritesTheLowByteOfTheProduct := by
  refine fun a b s => ⟨fun ha hb => ?_, fun ha => ?_, fun ha hb => ?_, fun m hm => ⟨rfl, ?_⟩⟩
  · refine ⟨_, exec_mul s ha hb, ?_, sameRegsBut_of_set ha rfl, rfl, fun _ => rfl, rfl, rfl, rfl⟩
    rw [Vector.getElem_set_self]
    exact trunc8_mul_toNat _ _
  · exact exec_illegal_first rfl ((not_legalIndex_iff a).2 ha) s
  · exact exec_illegal_second (.inl rfl) ((legalIndex_iff a).2 ha) ((not_legalIndex_iff b).2 hb) s
  · exact stepWith_of_three_bytes_missing (k := .mul) hm rfl s

/-- Settles O25: CMP's equation and its two faults, and the two addresses where an operand byte is missing. -/
theorem cmpSetsTheFlag : Obligations.CmpSetsTheFlag := by
  refine fun a b s => ⟨fun ha hb => ?_, fun ha => ?_, fun ha hb => ?_, fun m hm => ⟨rfl, ?_⟩⟩
  · obtain ⟨hequal, hgreater, hless, hset⟩ := compareFlag_spec s.regs[a.toNat] s.regs[b.toNat]
    exact ⟨_, exec_cmp s ha hb, hequal, hgreater, hless, hset, fun _ => rfl, rfl, fun _ => rfl, rfl, rfl⟩
  · exact exec_illegal_first rfl ((not_legalIndex_iff a).2 ha) s
  · exact exec_illegal_second (.inr rfl) ((legalIndex_iff a).2 ha) ((not_legalIndex_iff b).2 hb) s
  · exact stepWith_of_three_bytes_missing (k := .cmp) hm rfl s

end Sys2Proof.Machine

/-! ## PUSH and POP (R141 to R143) -/

namespace Sys2Proof.Machine

open Sys2Proof.Config

/-- The step of an opcode that has an operand, at the last address, faults at the address above memory (R93, R99). -/
theorem stepWith_of_first_operand_missing {m : OpcodeMap} (hm : m.Legal) {k : Opcode} (hk : 2 ≤ k.length) {s : State}
    (hrun : s.status = .running) (hb : s.mem.read s.pc = opcodeByte m k) (hpc : s.pc = 255) :
    stepWith m s = .next (faultedAt s .memoryBounds (s.pc + 1)) := by
  have hd : dispatch m (s.mem.read s.pc) = some k := (dispatch_eq_some hm).2 hb.symm
  rw [hpc]
  exact stepWith_of_operand_missing hrun hd (by rw [hpc]; decide) (by rw [hpc]; exact Nat.add_le_add_left hk 255)

/-- PUSH reads the decremented SP in register 7, and every other register as it was (R141, D25). -/
theorem pushRegs_getElem (s : State) {n : Nat} (hn : n < numRegs) :
    s.pushRegs[n] = if n = 7 then trunc8 ((s.regs[spIndex].toNat : Int) - 1) else s.regs[n] :=
  (Vector.getElem_set spIndex.isLt hn).trans (if_congr eq_comm rfl rfl)

/-- POP has the byte at SP in its own register, and every other register as it was (R142). -/
theorem popRegs_getElem (s : State) {r : Byte} (hr : legalIndex r) {n : Nat} (hn : n < numRegs) :
    (s.popRegs r hr)[n] = if n = r.toNat then s.mem.read s.regs[spIndex].toNat else s.regs[n] :=
  (Vector.getElem_set hr hn).trans (if_congr eq_comm rfl rfl)

/-- The address PUSH stores to is the decremented SP (R141, R143). -/
@[simp] theorem pushRegs_sp (s : State) : s.pushRegs[spIndex] = trunc8 ((s.regs[spIndex].toNat : Int) - 1) :=
  pushRegs_getElem s spIndex.isLt

/-- Settles O26: PUSH's equation, where the address stored to and the byte stored come from the decremented registers;
its fault; and the last address, where its operand byte is missing. -/
theorem pushStoresBelowTheStackPointer : Obligations.PushStoresBelowTheStackPointer := by
  refine fun r s => ⟨fun h => ?_, fun h => ?_, fun m hm => ⟨rfl, ?_⟩⟩
  · refine ⟨_, exec_push s h, pushRegs_sp s, sameRegsBut_of_set spIndex.isLt rfl, ?_, fun a ha => ?_,
      rfl, rfl, rfl, rfl⟩
    · rw [read_write, if_pos (by rw [pushRegs_sp]), pushRegs_getElem s h]
    · rw [read_write, if_neg (by rwa [pushRegs_sp])]
  · exact exec_illegal_first rfl ((not_legalIndex_iff r).2 h) s
  · exact stepWith_of_first_operand_missing (k := .push) hm le_rfl

/-- Settles O27: POP's equation, where the popped byte is in its register before SP is incremented, so that POP R7
increments that byte; its fault; and the last address, where its operand byte is missing. -/
theorem popLoadsFromTheStackPointer : Obligations.PopLoadsFromTheStackPointer := by
  refine fun r s => ⟨fun h => ?_, fun h => ?_, fun m hm => ⟨rfl, ?_⟩⟩
  · refine ⟨_, exec_pop s h, fun h7 => ⟨?_, ?_⟩, fun h7 => ?_, fun j hjr hj7 => ?_, rfl, fun _ => rfl, rfl, rfl, rfl⟩
    · exact (Vector.getElem_set_ne spIndex.isLt h (Ne.symm h7)).trans ((popRegs_getElem s h h).trans (if_pos rfl))
    · have hsp : (s.popRegs r h)[spIndex] = s.regs[spIndex] :=
        (popRegs_getElem s h spIndex.isLt).trans (if_neg (Ne.symm h7))
      rw [hsp]
      exact Vector.getElem_set_self spIndex.isLt
    · have hsp : (s.popRegs r h)[spIndex] = s.mem.read s.regs[spIndex].toNat :=
        (popRegs_getElem s h spIndex.isLt).trans (if_pos h7.symm)
      rw [hsp]
      exact Vector.getElem_set_self spIndex.isLt
    · exact (Vector.getElem_set_ne spIndex.isLt j.isLt (Ne.symm hj7)).trans
        ((popRegs_getElem s h j.isLt).trans (if_neg hjr))
  · exact exec_illegal_first rfl ((not_legalIndex_iff r).2 h) s
  · exact stepWith_of_first_operand_missing (k := .pop) hm le_rfl

end Sys2Proof.Machine

/-! ## JMP, JEQ and JNE (R151 to R153) -/

namespace Sys2Proof.Machine

open Sys2Proof.Config

/-- What an instruction of format r shares with every other: the fault of a bad register byte, which no flag prevents
(R78, D11), its two bytes (R71), and the fault of its step at the last address, where the register byte is missing
(R93). -/
theorem one_register_faults_and_encoding {i : Instr} {r : Byte} (hop : i.operands = [r]) (hlen : 2 ≤ i.opcode.length)
    (s : State) :
    (7 < r.toNat → exec i s = .next (faultedAt s .registerIndex r.toNat)) ∧
    ∀ m : OpcodeMap, m.Legal →
      encodeWith m i = [opcodeByte m i.opcode, r] ∧
      (s.status = .running → s.mem.read s.pc = opcodeByte m i.opcode → s.pc = 255 →
        stepWith m s = .next (faultedAt s .memoryBounds (s.pc + 1))) := by
  refine ⟨fun h => ?_, fun m hm => ⟨?_, ?_⟩⟩
  · exact exec_illegal_first (by rw [hop]; rfl) ((not_legalIndex_iff r).2 h) s
  · rw [encodeWith, hop]
  · exact stepWith_of_first_operand_missing hm hlen

/-- Settles O28: JMP's equation writes the pc alone, and the rest is that of every one-register instruction. -/
theorem jmpGoesToTheRegister : Obligations.JmpGoesToTheRegister := by
  refine fun r s => ⟨fun h => ?_, one_register_faults_and_encoding (i := .jmp r) rfl le_rfl s⟩
  exact ⟨_, exec_jmp s h, rfl, fun _ => rfl, fun _ => rfl, rfl, rfl, rfl⟩

/-- Settles O29: JEQ's equation, whose condition is decided by the flag, and the rest as for JMP. -/
theorem jeqJumpsOnEqual : Obligations.JeqJumpsOnEqual := by
  refine fun r s => ⟨fun h => ?_, one_register_faults_and_encoding (i := .jeq r) rfl le_rfl s⟩
  exact ⟨_, exec_jeq s h, fun hequal => if_pos hequal, fun hother => if_neg hother,
    fun _ => rfl, fun _ => rfl, rfl, rfl, rfl⟩

/-- Settles O30: JNE's equation, whose condition holds of every flag but EQUAL, Unset included, and the rest as for
JMP. -/
theorem jneJumpsUnlessEqual : Obligations.JneJumpsUnlessEqual := by
  refine fun r s => ⟨fun h => ?_, one_register_faults_and_encoding (i := .jne r) rfl le_rfl s⟩
  exact ⟨_, exec_jne s h, fun hother => if_pos hother, fun hequal => if_neg (not_not_intro hequal),
    fun _ => rfl, fun _ => rfl, rfl, rfl, rfl⟩

end Sys2Proof.Machine

/-! ## Faults (R163, R165) and the exit status (R176) -/

namespace Sys2Proof.Machine

open Sys2Proof.Config

/-- The fetch from above the last address raises the fault of that address (R51, R91). -/
theorem fetch_of_memSize_le {s : State} (m : OpcodeMap) (h : memSize ≤ s.pc) :
    s.fetch m = .error ⟨.memoryBounds, s.pc⟩ := by
  simp [State.fetch, memRead_outside s _ h]

/-- While Running, where a listed opcode's bytes all exist, the step is the handler of the instruction they make
(R94, R95). -/
theorem stepWith_of_dispatch {m : OpcodeMap} {s : State} {k : Opcode} (hrun : s.status = .running)
    (hd : dispatch m (s.mem.read s.pc) = some k) (hlen : s.pc + k.length ≤ memSize) :
    stepWith m s = exec (k.instr (s.mem.read (s.pc + 1)) (s.mem.read (s.pc + 2))) s :=
  stepWith_of_fetch_ok hrun (fetch_of_dispatch hd hlen)

/-- An opcode of more than one byte makes an instruction whose first operand is the first byte after it (R71). -/
theorem head?_operands_instr {k : Opcode} (hk : 2 ≤ k.length) (a b : Byte) :
    (k.instr a b).operands.head? = some a := by
  cases k with
  | hlt => exact absurd hk (by decide)
  | _ => rfl

/-- An instruction is well formed if its first operand, where it has one, and the second operand of MUL and CMP name
registers (R72). -/
theorem wellFormed_instr {k : Opcode} {a b : Byte} (ha : 2 ≤ k.length → legalIndex a)
    (hb : k = .mul ∨ k = .cmp → legalIndex b) : (k.instr a b).wellFormed = true := by
  cases k with
  | hlt => rfl
  | mul | cmp => simpa [Instr.wellFormed, Opcode.instr] using And.intro (ha (by decide)) (hb (by decide))
  | ldi | prn | push | pop | jmp | jeq | jne => exact decide_eq_true (ha (by decide))

/-- From a Running state a well-formed instruction answers a state that is not Faulted (R78). -/
theorem exec_wellFormed_not_faulted {i : Instr} {s : State} (hrun : s.status = .running) (hi : i.wellFormed = true) :
    ∃ t, exec i s = .next t ∧ ∀ c f n, t.status ≠ .faulted c f n := by
  obtain ⟨t, hexec⟩ := exec_next i s
  refine ⟨t, hexec, fun c f n hfault => ?_⟩
  cases hi.symm.trans (illFormed_of_exec_faults hrun hexec hfault)

/-- Settles O9: the first four checks are the fetch's; past them the step is the handler of `k`'s instruction, which
checks its register bytes in order. -/
theorem firstFailedCheckDecidesTheFault : Obligations.FirstFailedCheckDecidesTheFault := by
  refine fun m _ s hrun => ⟨fun hpc => ?_, fun hpc hd => ?_,
    fun k hpc hd => ⟨fun hk hpc1 => ?_, fun hk hpc1 hpc2 => ?_, fun hlen hk ha => ?_, fun hlen hk ha hb => ?_,
      fun hlen ha hb => ?_⟩⟩
  · exact stepWith_of_fetch_error hrun (fetch_of_memSize_le m hpc)
  · exact stepWith_of_fetch_error hrun (fetch_of_unlisted (Nat.lt_succ_of_le hpc) hd)
  · have hend : s.pc + 1 = memSize := Nat.le_antisymm (Nat.succ_le_succ hpc) hpc1
    rw [hend]
    exact stepWith_of_operand_missing hrun hd (by omega) (by omega)
  · have hend : s.pc + 2 = memSize := Nat.le_antisymm (Nat.succ_le_succ hpc1) hpc2
    rw [hend]
    exact stepWith_of_operand_missing hrun hd (by omega) (by omega)
  · rw [stepWith_of_dispatch hrun hd hlen]
    exact exec_illegal_first (head?_operands_instr hk _ _) ((not_legalIndex_iff _).2 ha) s
  · rw [stepWith_of_dispatch hrun hd hlen]
    refine exec_illegal_second (hk.imp ?_ ?_) ((legalIndex_iff _).2 ha) ((not_legalIndex_iff _).2 hb) s <;>
      (rintro rfl; rfl)
  · rw [stepWith_of_dispatch hrun hd hlen]
    exact exec_wellFormed_not_faulted hrun
      (wellFormed_instr (fun hk => (legalIndex_iff _).2 (ha hk)) (fun hk => (legalIndex_iff _).2 (hb hk)))

/-- A step that ends Faulted, in its fetch or in its handler, answers the state before it with the status alone
replaced, and records the pc it started at (R12, R163). -/
theorem stepWith_faulted {m : OpcodeMap} {s t : State} {c : FaultCause} {f n : Nat} (h : stepWith m s = .next t)
    (hfault : t.status = .faulted c f n) : f = s.pc ∧ t = faultedAt s c n := by
  obtain ⟨hrun, ⟨i, -, hexec⟩ | ⟨e, -, rfl⟩⟩ := stepWith_cases h
  · obtain ⟨b, -, hill⟩ := exec_illFormed (illFormed_of_exec_faults hrun hexec hfault)
    cases (hill s).symm.trans hexec
    cases hfault
    exact ⟨rfl, rfl⟩
  · cases hfault
    exact ⟨rfl, rfl⟩

/-- Settles O14: the answer of a faulting step differs from the state before in its status alone, and that status is
final. -/
theorem faultIsPreciseAndTerminal : Obligations.FaultIsPreciseAndTerminal := by
  intro s t c f n h hfault
  obtain ⟨hfpc, rfl⟩ := stepWith_faulted h hfault
  exact ⟨hfpc, rfl, rfl, rfl, rfl, rfl, stepWith_ne_next_of_final fun hrunning => by cases hrunning⟩

/-- Settles O53: each ending has its own number, because `EXIT_FAULT` is neither that of Halted nor that of a load
error. -/
theorem exitStatusTellsTheEndings : Obligations.ExitStatusTellsTheEndings := by
  intro exitFault h0 h2 ending
  match ending with
  | .error e => simp [exitStatus, h2.symm]
  | .ok .running => simp [exitStatus]
  | .ok .halted => simp [exitStatus, h0.symm]
  | .ok (.faulted c f n) => simp [exitStatus, h0, h2]

end Sys2Proof.Machine

/-! ## Reset with an image (R180) -/

namespace Sys2Proof.Machine

open Sys2Proof.Config

/-- `reset(image)` is the fixed reset state with the image's bytes in memory, where the image fits (R180). -/
theorem resetWith_of_length_le {image : List Byte} (h : image.length ≤ memSize) :
    resetWith image = some { State.reset with mem := State.reset.mem.place loadBase image } :=
  if_pos h

/-- After `reset(image)` a cell reads the image's byte, or 0x00 above the image (R39, D6). -/
theorem read_reset_place (image : List Byte) (a : Nat) :
    (State.reset.mem.place loadBase image).read a = if h : a < image.length then image[a] else 0x00 := by
  rw [read_place]
  simp [State.reset, Memory.unlisted]

/-- The general registers of the reset state are zero (D5). -/
theorem reset_regs_of_le : ∀ j : Fin numRegs, j.val ≤ 6 → State.reset.regs[j] = 0x00 := by
  decide

/-- Settles O19: the image's cells read back by `read_reset_place`, and the other fields are those of the fixed reset
state. -/
theorem resetSetsTheWholeState : Obligations.ResetSetsTheWholeState :=
  fun image h => ⟨_, resetWith_of_length_le h, fun a _ => read_reset_place image a, reset_regs_of_le,
    rfl, rfl, rfl, rfl, rfl⟩

end Sys2Proof.Machine

/-! ## The loader (R183 to R185) -/

namespace Sys2Proof.Machine

open Sys2Proof.Config

/-- A character that is neither `0` nor `1` makes a literal have no value (R184 step 4). -/
theorem binaryValue_eq_none_of_mem {digits : List Char} {c : Char} (hc : c ∈ digits) (h0 : c ≠ '0') (h1 : c ≠ '1') :
    binaryValue digits = none := by
  obtain ⟨before, after, rfl⟩ := List.append_of_mem hc
  simp [binaryValue, List.foldlM_append, h0, h1]

/-- What a line gives is decided by its text with the comment and the white space removed: nothing where none is left,
and otherwise the byte of the literal, which has a value (R184). -/
theorem parseLine_eq_ok {line : List Char} {b : Option Byte} :
    parseLine line = .ok b ↔
      (trimLine (stripComment line) = [] ∧ b = none) ∨
      (trimLine (stripComment line) ≠ [] ∧ ∃ v : Nat, binaryValue (trimLine (stripComment line)) = some v ∧
        b = some (trunc8 v)) := by
  unfold parseLine
  cases trimLine (stripComment line) with
  | nil => simp [eq_comm]
  | cons c cs => cases hv : binaryValue (c :: cs) <;> simp [hv, eq_comm]

/-- The lines are read one by one: a line's byte, where it gives one, comes before those of the lines after it (R183). -/
theorem parseLines_cons_eq_ok {line : List Char} {lines : List (List Char)} {image : List Byte} :
    parseLines (line :: lines) = .ok image ↔
      ∃ b bs, parseLine line = .ok b ∧ parseLines lines = .ok bs ∧ image = b.toList ++ bs := by
  rw [parseLines]
  cases parseLine line with
  | error e => simp [bind, Except.bind]
  | ok b =>
    cases parseLines lines with
    | error e => simp [bind, Except.bind]
    | ok bs => cases b <;> simp [bind, Except.bind, pure, Except.pure, eq_comm]

/-- The lines load if each of them is read and no more than 256 bytes come of it (R185). -/
theorem loadLines_eq_ok {lines : List (List Char)} {image : List Byte} :
    loadLines lines = .ok image ↔ parseLines lines = .ok image ∧ image.length ≤ memSize := by
  rw [loadLines]
  cases parseLines lines with
  | error e => simp [bind, Except.bind]
  | ok bs =>
    by_cases hfits : bs.length ≤ memSize
    · simpa [bind, Except.bind, pure, Except.pure, hfits] using fun h : bs = image => h ▸ hfits
    · simpa [bind, Except.bind, throw, throwThe, MonadExceptOf.throw, hfits] using
        fun h : bs = image => h ▸ Nat.lt_of_not_le hfits

/-- Where the lines are read, so is each of them. -/
theorem parseLine_ok_of_mem {lines : List (List Char)} {image : List Byte} (h : parseLines lines = .ok image)
    {line : List Char} (hline : line ∈ lines) : ∃ b, parseLine line = .ok b := by
  induction lines generalizing image with
  | nil => cases hline
  | cons first lines ih =>
    obtain ⟨b, bs, hfirst, hrest, -⟩ := parseLines_cons_eq_ok.1 h
    rcases List.mem_cons.1 hline with rfl | hmem
    · exact ⟨b, hfirst⟩
    · exact ih hrest hmem

/-- Each kept line is one byte of the image: those that are left blank give none (R184 step 3). -/
theorem length_of_parseLines_ok {lines : List (List Char)} {image : List Byte} (h : parseLines lines = .ok image) :
    image.length = (lines.filter fun l => !(trimLine (stripComment l)).isEmpty).length := by
  induction lines generalizing image with
  | nil =>
    cases h
    rfl
  | cons line lines ih =>
    obtain ⟨b, bs, hline, hrest, rfl⟩ := parseLines_cons_eq_ok.1 h
    obtain ⟨hblank, rfl⟩ | ⟨hkept, v, -, rfl⟩ := parseLine_eq_ok.1 hline
    · simp [hblank, ih hrest]
    · simp [hkept, ih hrest, Nat.add_comm]

/-- A loader that gives no image answers an error. -/
theorem exists_error_of_ne_ok {lines : List (List Char)} (h : ∀ image, loadLines lines ≠ .ok image) :
    ∃ e, loadLines lines = .error e := by
  cases hload : loadLines lines with
  | error e => exact ⟨e, rfl⟩
  | ok image => exact absurd hload (h image)

/-- Settles O52: an image would need a value of the malformed literal, or be as long as the kept lines are many. -/
theorem loadFailuresStartNoRun : Obligations.LoadFailuresStartNoRun := by
  refine ⟨⟨_, rfl⟩, fun _ _ => rfl, fun lines line c hline hc h0 h1 => ?_, fun lines hmany => ?_⟩
  · refine exists_error_of_ne_ok fun image hload => ?_
    obtain ⟨b, hb⟩ := parseLine_ok_of_mem (loadLines_eq_ok.1 hload).1 hline
    obtain ⟨hblank, -⟩ | ⟨-, v, hv, -⟩ := parseLine_eq_ok.1 hb
    · exact List.ne_nil_of_mem hc hblank
    · cases (binaryValue_eq_none_of_mem hc h0 h1).symm.trans hv
  · refine exists_error_of_ne_ok fun image hload => ?_
    obtain ⟨hparse, hfits⟩ := loadLines_eq_ok.1 hload
    rw [length_of_parseLines_ok hparse] at hfits
    exact absurd hmany (Nat.not_lt.2 hfits)

end Sys2Proof.Machine

/-! ## Decoding and encoding (R70, R71) -/

namespace Sys2Proof

open Sys2Proof.Config

/-- An opcode reads its instruction's operands off the bytes after it, and leaves what follows them. -/
theorem takeOperands_operands (i : Instr) (rest : List Byte) :
    takeOperands i.opcode (i.operands ++ rest) = .ok (i, rest) := by
  cases i <;> rfl

/-- What an opcode reads its operands off is the operands of its instruction, and what follows them. -/
theorem takeOperands_eq_ok {k : Opcode} {bytes rest : List Byte} {i : Instr}
    (h : takeOperands k bytes = .ok (i, rest)) : i.opcode = k ∧ bytes = i.operands ++ rest := by
  cases k with
  | hlt =>
    cases h
    exact ⟨rfl, rfl⟩
  | prn | push | pop | jmp | jeq | jne =>
    match bytes, h with
    | _ :: _, rfl => exact ⟨rfl, rfl⟩
  | ldi | mul | cmp =>
    match bytes, h with
    | _ :: _ :: _, rfl => exact ⟨rfl, rfl⟩

/-- Settles O4: the opcode byte dispatches to its opcode, which reads its own operands back. -/
theorem decodeInvertsEncode : Obligations.DecodeInvertsEncode := by
  intro m hm i rest
  rw [encodeWith, List.cons_append, decodeWith_opcodeByte hm, takeOperands_operands]

/-- Settles O5: the first byte is that of the opcode it dispatches to, and the others are what `takeOperands_eq_ok`
says. -/
theorem encodeInvertsDecode : Obligations.EncodeInvertsDecode := by
  intro m bytes rest i h
  cases bytes with
  | nil => cases h
  | cons b bytes =>
    cases hd : dispatch m b with
    | none => cases (decodeWith_of_unlisted hd bytes).symm.trans h
    | some k =>
      obtain ⟨rfl, rfl⟩ := takeOperands_eq_ok ((decodeWith_of_dispatch hd bytes).symm.trans h)
      rw [encodeWith, dispatch_byte hd, List.cons_append]

/-- Settles O1: each word's first byte dispatches to its opcode, whose operands the other bytes are. -/
theorem specWordsDecode : Obligations.SpecWordsDecode :=
  ⟨rfl, rfl, rfl, rfl, rfl, rfl, rfl, rfl, rfl, rfl⟩

end Sys2Proof

/-! ## The step of the bytes at the pc (R94, R95, R183) -/

namespace Sys2Proof.Machine

open Sys2Proof.Config

/-- The fetch gives the instruction that the bytes at the pc decode to (R91 to R93). -/
theorem fetch_of_decodeWith {m : OpcodeMap} {s : State} {i : Instr} {rest : List Byte}
    (h : decodeWith m s.codeBytes = .ok (i, rest)) : s.fetch m = .ok i := by
  rw [fetchIsDecodeOfCodeBytes, h]

/-- Settles O6: the fetch gives the decoded instruction, and the step is its handler. -/
theorem stepRunsDecodedInstruction : Obligations.StepRunsDecodedInstruction :=
  fun _ _ _ hrun h => stepWith_of_fetch_ok hrun (fetch_of_decodeWith h)

/-- Bytes placed at the pc, as many as the longest instruction has, are the bytes a step can fetch. -/
theorem codeBytes_placeAtPc (s : State) {bytes : List Byte} (h : bytes.length = maxLength) :
    (s.placeAtPc bytes).codeBytes = bytes := by
  have hfits : (s.placeAtPc bytes).pc + maxLength ≤ memSize := by
    simp only [State.placeAtPc, h]
    split
    · assumption
    · decide
  rw [codeBytes_eq_range, min_eq_left (by omega)]
  refine List.ext_getElem (by simp [h]) fun k hk hk' => ?_
  simp [State.placeAtPc, read_place, hk']

/-- Settles O15: a table word is as long as the longest instruction, so that its bytes are what is decoded. -/
theorem placedWordIsTheNextInstruction : Obligations.PlacedWordIsTheNextInstruction := by
  intro s nbits w i h
  unfold decodeTableWord at h
  split at h
  · next _ rest hdecode =>
    cases h
    refine stepRunsDecodedInstruction _ i rest rfl ?_
    rwa [State.withFetchWord, codeBytes_placeAtPc s (by simp [tableBytes])]
  · cases h

end Sys2Proof.Machine

/-! ## What each instruction does to memory and to the registers (R26, R53) -/

namespace Sys2Proof.Machine

open Sys2Proof.Config

/-- An instruction other than PUSH keeps memory, and another memory makes no difference to it, if POP finds the same
byte at SP there. -/
theorem exec_passes_mem {i : Instr} {s t : State} (h : exec i s = .next t) (hp : i.opcode ≠ .push) :
    t.mem = s.mem ∧ ∀ m' : Memory,
      (i.opcode = .pop → m'.read s.regs[spIndex].toNat = s.mem.read s.regs[spIndex].toNat) →
      exec i { s with mem := m' } = .next { t with mem := m' } := by
  cases hi : i.wellFormed with
  | false =>
    obtain ⟨b, -, hfault⟩ := exec_illFormed hi
    cases (hfault s).symm.trans h
    exact ⟨rfl, fun m' _ => hfault _⟩
  | true =>
    cases i with
    | hlt =>
      cases h
      exact ⟨rfl, fun m' _ => rfl⟩
    | push r => exact absurd rfl hp
    | mul a b | cmp a b =>
      obtain ⟨ha, hb⟩ : legalIndex a ∧ legalIndex b := by simpa [Instr.wellFormed] using hi
      simp only [exec_mul, exec_cmp, ha, hb, Host.Outcome.next.injEq] at h ⊢
      subst h
      exact ⟨rfl, fun m' _ => rfl⟩
    | ldi r _ | prn r | jmp r | jeq r | jne r =>
      have hr : legalIndex r := of_decide_eq_true hi
      simp only [exec_ldi, exec_prn, exec_jmp, exec_jeq, exec_jne, hr, Host.Outcome.next.injEq] at h ⊢
      subst h
      exact ⟨rfl, fun m' _ => rfl⟩
    | pop r =>
      have hr : legalIndex r := of_decide_eq_true hi
      cases (exec_pop s hr).symm.trans h
      refine ⟨rfl, fun m' hcell => ?_⟩
      have hregs : State.popRegs { s with mem := m' } r hr = s.popRegs r hr := by
        rw [State.popRegs, hcell rfl, State.popRegs]
      rw [exec_pop _ hr, hregs]

/-- PUSH writes one cell, at the decremented SP, or none, and what else it does is the same whatever memory holds. -/
theorem exec_push_mem {r : Byte} {s t : State} (h : exec (.push r) s = .next t) :
    (t.mem = s.mem ∨ ∃ v, t.mem = s.mem.write (trunc8 ((s.regs[spIndex].toNat : Int) - 1)).toNat v) ∧
    ∀ m' : Memory, ∃ m'', exec (.push r) { s with mem := m' } = .next { t with mem := m'' } := by
  by_cases hr : legalIndex r
  · cases (exec_push s hr).symm.trans h
    rw [pushRegs_sp]
    exact ⟨.inr ⟨_, rfl⟩, fun m' => ⟨_, exec_push _ hr⟩⟩
  · have hfault := exec_illegal_first (i := .push r) rfl hr
    cases (hfault s).symm.trans h
    exact ⟨.inl rfl, fun m' => ⟨m', hfault _⟩⟩

/-- Settles O41: PUSH writes at most its one cell, and every other instruction passes memory on. -/
theorem onlyPushWritesAndOnlyPopReadsMemory : Obligations.OnlyPushWritesAndOnlyPopReadsMemory := by
  refine fun i s t h => ⟨fun hp => (exec_passes_mem h hp).1, fun hp => ?_, fun hp => (exec_passes_mem h hp).2,
    fun hp => ?_⟩
  all_goals
    cases i with
    | push r => ?_
    | _ => cases hp
  · intro a ha
    obtain hkept | ⟨v, hwritten⟩ := (exec_push_mem h).1
    · rw [hkept]
    · rw [hwritten, read_write, if_neg ha]
  · exact (exec_push_mem h).2

/-- A register that is not as before a write is the one written. -/
theorem eq_of_set_ne {regs : Vector Byte numRegs} {n : Nat} (hn : n < numRegs) {v : Byte} {j : Fin numRegs}
    (h : (regs.set n v)[j] ≠ regs[j]) : j.val = n := by
  by_contra hj
  exact h (Vector.getElem_set_ne hn j.isLt (Ne.symm hj))

/-- Settles O42: an ill-formed instruction writes no register, and a well-formed one those its equation sets. -/
theorem registerWritesOfEachInstruction : Obligations.RegisterWritesOfEachInstruction := by
  intro i s t h j hj
  cases hi : i.wellFormed with
  | false =>
    obtain ⟨b, -, hfault⟩ := exec_illFormed hi
    cases (hfault s).symm.trans h
    exact absurd rfl hj
  | true =>
    cases i with
    | hlt =>
      cases h
      exact hj rfl
    | mul a b =>
      obtain ⟨ha, hb⟩ : legalIndex a ∧ legalIndex b := by simpa [Instr.wellFormed] using hi
      cases (exec_mul s ha hb).symm.trans h
      exact eq_of_set_ne ha hj
    | cmp a b =>
      obtain ⟨ha, hb⟩ : legalIndex a ∧ legalIndex b := by simpa [Instr.wellFormed] using hi
      cases (exec_cmp s ha hb).symm.trans h
      exact hj rfl
    | ldi r imm =>
      have hr : legalIndex r := of_decide_eq_true hi
      cases (exec_ldi s imm hr).symm.trans h
      exact eq_of_set_ne hr hj
    | push r =>
      have hr : legalIndex r := of_decide_eq_true hi
      cases (exec_push s hr).symm.trans h
      exact Fin.ext (eq_of_set_ne spIndex.isLt hj)
    | pop r =>
      have hr : legalIndex r := of_decide_eq_true hi
      cases (exec_pop s hr).symm.trans h
      by_cases hloaded : (s.popRegs r hr)[j] = s.regs[j]
      · exact .inr (Fin.ext (eq_of_set_ne spIndex.isLt (hloaded ▸ hj)))
      · exact .inl (eq_of_set_ne hr hloaded)
    | prn r | jmp r | jeq r | jne r =>
      have hr : legalIndex r := of_decide_eq_true hi
      simp only [exec_prn, exec_jmp, exec_jeq, exec_jne, hr, Host.Outcome.next.injEq] at h
      subst h
      exact hj rfl

end Sys2Proof.Machine

/-! ## The invariant (R40) -/

namespace Sys2Proof.Machine

open Sys2Proof.Config

/-- A handler keeps memory in its canonical form. -/
theorem exec_mem_wf {i : Instr} {s t : State} (h : exec i s = .next t) (hwf : s.mem.wf) : t.mem.wf := by
  cases i with
  | push r =>
    obtain hkept | ⟨v, hwritten⟩ := (exec_push_mem h).1
    · rwa [hkept]
    · rw [hwritten]
      exact write_wf hwf (BitVec.isLt _)
  | _ => rwa [(exec_passes_mem h (by simp [Instr.opcode])).1]

/-- A handler whose instruction's bytes all exist leaves the pc in its range. -/
theorem exec_pc_le {i : Instr} {s t : State} (h : exec i s = .next t) (hlen : s.pc + i.opcode.length ≤ memSize) :
    t.pc ≤ pcMax := by
  obtain ⟨hfault, hnext⟩ := nextPcOfEachInstruction i s t h
  have hpc : s.pc ≤ pcMax := (Nat.le_of_add_right_le hlen).trans (by decide)
  cases hi : i.wellFormed with
  | false => rwa [hfault hi]
  | true =>
    replace hnext := hnext hi
    cases i with
    | hlt => rwa [hnext]
    | ldi | mul | cmp | prn | push | pop => rw [hnext]; exact hlen.trans (by decide)
    | jmp => exact hnext.2.trans (by decide)
    | jeq | jne =>
      dsimp only at hnext
      split at hnext
      · exact hnext.2.trans (by decide)
      · rw [hnext]; exact hlen.trans (by decide)

/-- What the fetch gives is the instruction of a listed opcode at the pc, whose bytes all exist. -/
theorem fetch_eq_ok {m : OpcodeMap} {s : State} {i : Instr} (h : s.fetch m = .ok i) :
    ∃ k, dispatch m (s.mem.read s.pc) = some k ∧ s.pc + k.length ≤ memSize ∧
      i = k.instr (s.mem.read (s.pc + 1)) (s.mem.read (s.pc + 2)) := by
  obtain ⟨-, he⟩ | ⟨-, -, he⟩ | ⟨k, -, hk, ⟨-, -, he⟩ | ⟨-, -, -, he⟩ | ⟨hlen, hok⟩⟩ := fetch_cases m s
  · cases he.symm.trans h
  · cases he.symm.trans h
  · cases he.symm.trans h
  · cases he.symm.trans h
  · cases hok.symm.trans h
    exact ⟨k, hk, hlen, rfl⟩

/-- The fault a fetch raises is that of the bytes at the pc (R51, R77, R165). -/
theorem statusExplained_of_fetch_error {s : State} {e : Raise} (h : s.fetch defaultOpcodes = .error e) :
    StatusExplained (s.takeFault e) := by
  obtain ⟨hpc, he⟩ | ⟨hpc, hd, he⟩ | ⟨k, hpc, hd, hk⟩ := fetch_cases defaultOpcodes s
  · cases he.symm.trans h
    exact ⟨rfl, .inl ⟨hpc, rfl⟩⟩
  · cases he.symm.trans h
    exact ⟨rfl, hpc, hd, rfl⟩
  · obtain ⟨hl, hpc1, he⟩ | ⟨hl, hpc1, hpc2, he⟩ | ⟨-, hok⟩ := hk
    · cases he.symm.trans h
      exact ⟨rfl, .inr ⟨hpc, Nat.le_antisymm hpc hpc1, k, hd, by show memSize < s.pc + k.length; omega⟩⟩
    · cases he.symm.trans h
      exact ⟨rfl, .inr ⟨hpc, Nat.le_antisymm hpc1 hpc2, k, hd, by show memSize < s.pc + k.length; omega⟩⟩
    · cases hok.symm.trans h

/-- The fault of an ill-formed instruction is that of its first bad register byte (R78, R165). -/
theorem statusExplained_of_illFormed {s t : State} {k : Opcode} (hd : dispatch defaultOpcodes (s.mem.read s.pc) = some k)
    (hlen : s.pc + k.length ≤ memSize)
    (hi : (k.instr (s.mem.read (s.pc + 1)) (s.mem.read (s.pc + 2))).wellFormed = false)
    (h : exec (k.instr (s.mem.read (s.pc + 1)) (s.mem.read (s.pc + 2))) s = .next t) : StatusExplained t := by
  by_cases ha : 2 ≤ k.length → legalIndex (s.mem.read (s.pc + 1))
  · by_cases hb : k = .mul ∨ k = .cmp → legalIndex (s.mem.read (s.pc + 2))
    · cases hi.symm.trans (wellFormed_instr ha hb)
    · obtain ⟨hk, hbad⟩ := Classical.not_imp.1 hb
      have hrr : k.format = .rr := by obtain rfl | rfl := hk <;> rfl
      have hlegal : legalIndex (s.mem.read (s.pc + 1)) := ha (by rw [Opcode.length, hrr]; decide)
      cases (exec_illegal_second (by obtain rfl | rfl := hk <;> simp [Opcode.instr]) hlegal hbad s).symm.trans h
      exact ⟨rfl, k, hd, hlen, Nat.le_of_not_lt hbad, .inr ⟨hrr, hlegal, rfl⟩⟩
  · obtain ⟨hk, hbad⟩ := Classical.not_imp.1 ha
    cases (exec_illegal_first (head?_operands_instr hk _ _) hbad s).symm.trans h
    exact ⟨rfl, k, hd, hlen, Nat.le_of_not_lt hbad, .inl ⟨by rintro rfl; exact absurd hk (by decide), rfl⟩⟩

/-- A well-formed instruction halts where it is an HLT, and otherwise goes on Running. -/
theorem statusExplained_of_wellFormed {i : Instr} {s t : State} (hrun : s.status = .running)
    (hf : s.fetch defaultOpcodes = .ok i) (hi : i.wellFormed = true) (h : exec i s = .next t) : StatusExplained t := by
  obtain ⟨k, -, hlen, -⟩ := fetch_eq_ok hf
  by_cases hhlt : i = .hlt
  · subst hhlt
    cases h
    have hpos : 1 ≤ k.length := by cases k <;> decide
    exact ⟨by show s.pc < memSize; omega, dispatch_of_fetch_ok hf⟩
  · obtain ⟨u, hu, hstatus⟩ := exec_wellFormed_status s hi
    cases hu.symm.trans h
    rw [if_neg hhlt, hrun] at hstatus
    simp [StatusExplained, hstatus]

/-- What a step records of its end is what the bytes at the pc say (R97, R163). -/
theorem step_statusExplained {s t : State} (h : step s = .next t) : StatusExplained t := by
  obtain ⟨hrun, ⟨i, hf, hexec⟩ | ⟨e, hf, rfl⟩⟩ := stepWith_cases h
  · cases hi : i.wellFormed with
    | true => exact statusExplained_of_wellFormed hrun hf hi hexec
    | false =>
      obtain ⟨k, hd, hlen, rfl⟩ := fetch_eq_ok hf
      exact statusExplained_of_illFormed hd hlen hi hexec
  · exact statusExplained_of_fetch_error hf

/-- Settles O16: a handler keeps the canonical form and the range of the pc, a fault of the fetch changes neither, and
the new status is explained by where the step was taken. -/
theorem stepKeepsInvariant : Obligations.StepKeepsInvariant := by
  rintro s t ⟨hwf, hpc, -⟩ h
  have hexplained : StatusExplained t := step_statusExplained h
  obtain ⟨-, ⟨i, hf, hexec⟩ | ⟨e, -, rfl⟩⟩ := stepWith_cases h
  · obtain ⟨k, -, hlen, rfl⟩ := fetch_eq_ok hf
    exact ⟨exec_mem_wf hexec hwf, exec_pc_le hexec (by rwa [opcode_of_instr]), hexplained⟩
  · exact ⟨hwf, hpc, hexplained⟩

/-- Settles O17: the reset memory is canonical, the pc is 0, and Running explains itself. -/
theorem resetMeetsInvariant : Obligations.ResetMeetsInvariant :=
  ⟨reset_mem_wf, Nat.zero_le _, trivial⟩

/-- What every step keeps, every run keeps. -/
theorem runWith_keeps {m : OpcodeMap} {P : State → Prop} (hstep : ∀ s t, P s → stepWith m s = .next t → P t) {s : State}
    (hs : P s) (n : Nat) : P (runWith m n s) := by
  induction n generalizing s with
  | zero => exact hs
  | succ n ih =>
    rw [runWith]
    split
    · exact ih (hstep s _ hs ‹_›)
    · exact hs
    · exact hs

/-- A reset with an image meets the invariant (R39, R40). -/
theorem resetWith_inv {image : List Byte} {s : State} (h : resetWith image = some s) : Inv s := by
  have hwf : s.mem.wf := resetWith_mem_wf h
  unfold resetWith at h
  split at h
  · cases h
    exact ⟨hwf, Nat.zero_le _, trivial⟩
  · cases h

/-- Settles O18: the invariant holds after the reset, and every step keeps it. -/
theorem everyReachableStateMeetsInvariant : Obligations.EveryReachableStateMeetsInvariant :=
  fun _ _ n h => runWith_keeps stepKeepsInvariant (resetWith_inv h) n

end Sys2Proof.Machine

/-! ## The opcode table and the states with no step (R8, R77, R80, R96) -/

namespace Sys2Proof

open Sys2Proof.Config

/-- Under a legal assignment the listed bytes are as many as the opcodes, ten of the 256 (R8, R75). -/
theorem length_filter_listed {m : OpcodeMap} (hm : m.Legal) :
    ((List.range 256).filter fun n => !(dispatch m (BitVec.ofNat 8 n)).isNone).length = allOpcodes.length := by
  have hbytes : ((allOpcodes.map (opcodeByte m)).map BitVec.toNat).Nodup :=
    hm.map fun _ _ => BitVec.eq_of_toNat_eq
  have hperm : ((List.range 256).filter fun n => !(dispatch m (BitVec.ofNat 8 n)).isNone).Perm
      ((allOpcodes.map (opcodeByte m)).map BitVec.toNat) := by
    refine (List.perm_ext_iff_of_nodup (List.nodup_range.filter _) hbytes).2 fun n => ?_
    simp only [List.mem_filter, List.mem_range, Bool.not_eq_true', Option.isNone_eq_false_iff,
      Option.isSome_iff_exists, dispatch_eq_some hm, List.mem_map, mem_allOpcodes, true_and,
      exists_exists_eq_and]
    constructor
    · rintro ⟨hn, k, hk⟩
      exact ⟨k, by rw [hk, BitVec.toNat_ofNat, Nat.mod_eq_of_lt hn]⟩
    · rintro ⟨k, rfl⟩
      exact ⟨BitVec.isLt _, k, by simp⟩
  simpa only [List.length_map] using hperm.length_eq

/-- Settles O2: ten of the 256 bytes are listed, as under every legal assignment, and the other 246 are not. -/
theorem defaultTableLeaves246BytesUnknown : Obligations.DefaultTableLeaves246BytesUnknown := by
  refine ⟨defaultOpcodes_legal, ?_⟩
  have hsplit := List.length_eq_length_filter_add (l := List.range 256)
    fun n => (dispatch defaultOpcodes (BitVec.ofNat 8 n)).isNone
  have hten : allOpcodes.length = 10 := rfl
  rw [length_filter_listed defaultOpcodes_legal, List.length_range] at hsplit
  omega

namespace Machine

/-- Settles O11: the default table lists neither byte, and the fetch raises the fault of an unlisted byte. -/
theorem addAndSubBytesAreUnknown : Obligations.AddAndSubBytesAreUnknown := by
  intro s hrun hpc hbyte
  have hd : dispatch defaultOpcodes (s.mem.read s.pc) = none := by
    rcases hbyte with hbyte | hbyte <;> rw [hbyte] <;> decide
  exact stepWith_of_fetch_error hrun (fetch_of_unlisted (Nat.lt_succ_of_le hpc) hd)

/-- Settles O13: the guard answers by the status before anything is fetched. -/
theorem finalStatesStopByName : Obligations.FinalStatesStopByName := by
  refine fun s => ⟨fun hhalted => ?_, fun c f n hfaulted => ?_⟩
  · simp only [step, stepWith, State.whenRunning, hhalted]
  · simp only [step, stepWith, State.whenRunning, hfaulted]

/-- Settles O20: an image is placed only where it fits, and the empty one places nothing. -/
theorem resetWithNoImageIsTheResetState : Obligations.ResetWithNoImageIsTheResetState :=
  ⟨resetWith_of_length_le (Nat.zero_le _), fun _ h => if_neg (Nat.not_le.2 h)⟩

/-- Settles O31: the case distinction of `exec_wellFormed_status`. -/
theorem everyWellFormedInstructionCompletes : Obligations.EveryWellFormedInstructionCompletes := by
  intro i s hi
  obtain ⟨t, hexec, hstatus⟩ := exec_wellFormed_status s hi
  exact ⟨t, hexec, fun h => hstatus.trans (if_pos h), fun h => hstatus.trans (if_neg h)⟩

/-- A step that changes FL runs a well-formed CMP, which sets it to a comparison's value (R31). -/
theorem stepWith_fl {m : OpcodeMap} {s t : State} (h : stepWith m s = .next t) :
    t.fl = s.fl ∨ t.fl ≠ .unset ∧ dispatch m (s.mem.read s.pc) = some .cmp := by
  obtain ⟨-, ⟨i, hf, hexec⟩ | ⟨e, -, rfl⟩⟩ := stepWith_cases h
  · by_cases hc : i.opcode = .cmp
    · cases hi : i.wellFormed with
      | false =>
        obtain ⟨b, -, hfault⟩ := exec_illFormed hi
        cases (hfault s).symm.trans hexec
        exact .inl rfl
      | true =>
        obtain ⟨-, hcmp, -⟩ := flagIsWrittenByCmpAndReadByJeqJne i s t hexec
        exact .inr ⟨(hcmp hc hi).1, hc ▸ dispatch_of_fetch_ok hf⟩
    · exact .inl (exec_passes_fl hexec hc).1
  · exact .inl rfl

/-- Settles O39: the two cases of `stepWith_fl`. -/
theorem stepNeverUnsetsTheFlag : Obligations.StepNeverUnsetsTheFlag := by
  intro s t h
  obtain hkept | ⟨hset, hcmp⟩ := stepWith_fl h
  · exact ⟨fun hs => hkept ▸ hs, fun hchanged => absurd hkept hchanged⟩
  · exact ⟨fun _ => hset, fun _ => hcmp⟩

end Machine
end Sys2Proof

/-! ## Memory as data (R50) -/

namespace Sys2Proof.Machine

open Sys2Proof.Config

/-- A cell listed in a canonical memory is what its address reads as. -/
theorem read_of_mem {m : Memory} (hm : m.wf) {c : Host.Cell} (hc : c ∈ m) : m.read c.1 = c.2 := by
  obtain ⟨hrise, -⟩ := hm
  induction m with
  | nil => cases hc
  | cons d m ih =>
    obtain ⟨hd, hrise⟩ := List.pairwise_cons.1 hrise
    rw [read_cons]
    rcases List.mem_cons.1 hc with rfl | hc
    · exact if_pos rfl
    · rw [if_neg (hd c hc).ne, ih hc hrise]

/-- An address that does not read as an unlisted cell is listed, with the byte it reads as. -/
theorem mem_of_read_ne {m : Memory} {a : Nat} (h : m.read a ≠ Memory.unlisted) : (a, m.read a) ∈ m := by
  induction m with
  | nil => exact absurd rfl h
  | cons d m ih =>
    rw [read_cons] at h ⊢
    split at h
    · next hd => rw [if_pos hd, ← hd]; exact List.mem_cons_self
    · next hd => rw [if_neg hd]; exact List.mem_cons_of_mem d (ih h)

/-- A canonical memory lists exactly the existing addresses that do not read as an unlisted cell. -/
theorem mem_iff_read {m : Memory} (hm : m.wf) {c : Host.Cell} :
    c ∈ m ↔ c.1 < memSize ∧ c.2 ≠ Memory.unlisted ∧ m.read c.1 = c.2 := by
  refine ⟨fun hc => ⟨(hm.2 c hc).1, (hm.2 c hc).2, read_of_mem hm hc⟩, fun ⟨_, hv, hread⟩ => ?_⟩
  rw [← hread] at hv
  simpa only [hread] using mem_of_read_ne hv

/-- Settles O36: the two list the same cells, and both by rising address. -/
theorem canonicalMemoriesThatReadAlikeAreEqual : Obligations.CanonicalMemoriesThatReadAlikeAreEqual := by
  intro m n hm hn halike
  have hcells : ∀ c, c ∈ m ↔ c ∈ n := fun c => by
    rw [mem_iff_read hm, mem_iff_read hn]
    exact and_congr_right fun ha => by rw [halike _ ha]
  have hperm : m.Perm n := (List.perm_ext_iff_of_nodup (hm.1.imp fun h e => h.ne (congrArg _ e))
    (hn.1.imp fun h e => h.ne (congrArg _ e))).2 hcells
  exact hperm.eq_of_pairwise (fun c d _ _ hcd hdc => absurd hcd hdc.not_gt) hm.1 hn.1

end Sys2Proof.Machine

/-! ## Two instructions together (R64, R110, R145, R152, R153) -/

namespace Sys2Proof.Machine

open Sys2Proof.Config

/-- Settles O44: PRN emits the register LDI has written. -/
theorem ldiThenPrnEmitsTheImmediate : Obligations.LdiThenPrnEmitsTheImmediate := by
  refine fun r v s hr => ⟨_, _, exec_ldi s v hr, exec_prn _ hr, ?_, rfl⟩
  simp only [Vector.getElem_set_self]

/-- Settles O45: CMP's flag is EQUAL exactly where the registers are, and that is what JEQ and JNE decide by. -/
theorem conditionalJumpAfterCmp : Obligations.ConditionalJumpAfterCmp := by
  intro a b r s ha hb hr
  have hequal : compareFlag s.regs[a.toNat] s.regs[b.toNat] = .equal ↔ s.regs[a.toNat] = s.regs[b.toNat] :=
    (compareFlag_spec _ _).1.trans BitVec.toNat_inj
  refine ⟨_, _, _, exec_cmp s ha hb, exec_jeq _ hr, exec_jne _ hr, ?_, ?_⟩
  · simp only [hequal]
  · simp only [hequal, ne_eq, ite_not]

/-- Right after a PUSH, the byte POP loads is the one its register already has. -/
theorem popRegs_of_pushed {s t : State} {r : Byte} (hr : legalIndex r) (hregs : t.regs = s.pushRegs)
    (hcell : t.mem.read s.pushRegs[spIndex].toNat = s.pushRegs[r.toNat]) : t.popRegs r hr = s.pushRegs := by
  rw [State.popRegs, hregs, hcell]
  exact Vector.set_getElem_self hr

/-- The stack pointer PUSH has decremented is made what it was by an increment, the wrap included (R143). -/
theorem trunc8_pred_succ (b : Byte) : trunc8 (((trunc8 ((b.toNat : Int) - 1)).toNat : Int) + 1) = b := by
  have hpred := trunc8_value ((b.toNat : Int) - 1)
  have hsucc := trunc8_value (((trunc8 ((b.toNat : Int) - 1)).toNat : Int) + 1)
  have hb : b.toNat < 256 := b.isLt
  exact BitVec.eq_of_toNat_eq (by omega)

/-- PUSH's registers with SP incremented again are those before the PUSH. -/
theorem pushRegs_set_succ (s : State) :
    s.pushRegs.set spIndex (trunc8 ((s.pushRegs[spIndex].toNat : Int) + 1)) = s.regs := by
  rw [pushRegs_sp, trunc8_pred_succ, State.pushRegs, Vector.set_set]
  exact Vector.set_getElem_self spIndex.isLt

/-- Settles O43: POP loads what PUSH has stored, so that only SP is to be restored, and it is. -/
theorem pushThenPopRestoresTheRegisters : Obligations.PushThenPopRestoresTheRegisters := by
  refine fun r s hr => ⟨_, _, exec_push s hr, exec_pop _ hr, fun j => ?_, rfl, rfl, rfl, rfl⟩
  rw [popRegs_of_pushed hr rfl (by rw [read_write, if_pos rfl]), pushRegs_set_succ]

/-- A PUSH whose decremented SP is the next pc leaves its byte there, as the register file has it then (R64). -/
theorem exec_push_over_next_pc {r : Byte} {s : State} (hr : legalIndex r) (hsp : s.pushRegs[spIndex].toNat = s.pc + 2) :
    ∃ t, exec (.push r) s = .next t ∧ t.status = s.status ∧ t.pc = s.pc + 2 ∧ t.mem.read t.pc = s.pushRegs[r.toNat] := by
  refine ⟨_, exec_push s hr, rfl, rfl, ?_⟩
  rw [read_write, if_pos hsp.symm]

/-- Settles O46: the pushed byte is read back at the pc, and the step is decided by what it dispatches to. -/
theorem pushedByteIsTheNextOpcode : Obligations.PushedByteIsTheNextOpcode := by
  intro r s hr hrun hsp
  rw [← pushRegs_sp] at hsp
  obtain ⟨t, hexec, hstatus, hpc, hread⟩ := exec_push_over_next_pc hr hsp
  have hrun : t.status = .running := hstatus.trans hrun
  have hin : t.pc < memSize := by
    rw [hpc, ← hsp]
    exact BitVec.isLt _
  refine ⟨t, t.mem.read t.pc, hexec, hrun, hpc, hread.trans (pushRegs_getElem s hr), rfl,
    fun m => ⟨fun hd => ?_, fun k hd => ⟨fun hlen => ?_, fun hlen => ?_⟩⟩⟩
  · exact stepWith_of_fetch_error hrun (fetch_of_unlisted hin hd)
  · exact stepWith_of_dispatch hrun hd hlen
  · exact stepWith_of_operand_missing hrun hd hin hlen

end Sys2Proof.Machine

/-! ## Runs (R34, R96 to R98) -/

namespace Sys2Proof.Machine

open Sys2Proof.Config

/-- A run stays at a state that steps to itself. -/
theorem runWith_of_step_self {m : OpcodeMap} {s : State} (h : stepWith m s = .next s) (n : Nat) :
    runWith m n s = s := by
  induction n with
  | zero => rfl
  | succ n ih => rw [runWith_succ_next n h, ih]

/-- Settles O47: the JMP writes the pc that is there already, so that the step answers the same state. -/
theorem jumpToItselfNeverEnds : Obligations.JumpToItselfNeverEnds := by
  intro m hm s r hr hrun hbytes hself
  have hstep : stepWith m s = .next s := by
    rw [stepHoldsForEveryOpcodeAssignment m hm s _ hrun hbytes, exec_jmp s hr, hself]
  refine ⟨hstep, fun n => ?_⟩
  rw [runWith_of_step_self hstep, runWith_of_step_self hstep]
  exact ⟨hrun, hstep, rfl⟩

/-- A run of `n + k` steps is a run of `n` and then one of `k`. -/
theorem runWith_add (m : OpcodeMap) (n k : Nat) (s : State) : runWith m (n + k) s = runWith m k (runWith m n s) := by
  induction n generalizing s with
  | zero => rw [Nat.zero_add, runWith]
  | succ n ih =>
    by_cases h : ∃ t, stepWith m s = .next t
    · obtain ⟨t, ht⟩ := h
      rw [Nat.add_right_comm, runWith_succ_next _ ht, runWith_succ_next n ht, ih]
    · have hstay : ∀ t, stepWith m s ≠ .next t := not_exists.1 h
      simp only [runWith_of_no_step _ hstay]

/-- Settles O48: the last `k` steps are a run from a state that has no step. -/
theorem finalStateIsKept : Obligations.FinalStateIsKept := by
  intro s n k hfinal
  rw [run, runWith_add]
  exact run_of_no_step k (stepWith_ne_next_of_final hfinal)

/-- A run of `k` steps appends at most `k` bytes to the output trace. -/
theorem runWith_out (m : OpcodeMap) (k : Nat) (s : State) :
    ∃ later, (runWith m k s).out = s.out ++ later ∧ later.length ≤ k := by
  induction k generalizing s with
  | zero => exact ⟨[], (List.append_nil _).symm, le_rfl⟩
  | succ k ih =>
    by_cases h : ∃ t, stepWith m s = .next t
    · obtain ⟨t, ht⟩ := h
      obtain ⟨later, hlater, hlen⟩ := ih t
      rw [runWith_succ_next k ht, hlater]
      obtain hnone | ⟨-, v, hv⟩ := stepWith_appends ht
      · exact ⟨later, by rw [hnone.1, List.append_nil], Nat.le_succ_of_le hlen⟩
      · exact ⟨v :: later, by rw [hv.1, List.append_assoc]; rfl, Nat.succ_le_succ hlen⟩
    · rw [runWith_of_no_step _ (not_exists.1 h)]
      exact ⟨[], (List.append_nil _).symm, Nat.zero_le _⟩

/-- Settles O49: the last `k` steps are a run from the state after `n`. -/
theorem runOutputIsExtendedByMoreSteps : Obligations.RunOutputIsExtendedByMoreSteps := by
  intro s n k
  rw [run, runWith_add]
  exact runWith_out defaultOpcodes k _

end Sys2Proof.Machine

/-! ## The program file's lines (R184) -/

namespace Sys2Proof.Machine

open Sys2Proof.Config

/-- A line that gives no byte makes no difference to what the lines give. -/
theorem parseLines_cons_of_none {line : List Char} (h : parseLine line = .ok none) (lines : List (List Char)) :
    parseLines (line :: lines) = parseLines lines := by
  rw [parseLines, h]
  cases parseLines lines <;> rfl

/-- The lines that are blank make no difference to what the lines give. -/
theorem parseLines_filter (lines : List (List Char)) :
    parseLines (lines.filter fun l => !(trimLine (stripComment l)).isEmpty) = parseLines lines := by
  induction lines with
  | nil => rfl
  | cons line lines ih =>
    by_cases hblank : trimLine (stripComment line) = []
    · rw [List.filter_cons_of_neg (by simp [hblank]), ih,
        parseLines_cons_of_none (parseLine_eq_ok.2 (.inl ⟨hblank, rfl⟩))]
    · rw [List.filter_cons_of_pos (by simp [hblank]), parseLines, ih, ← parseLines]

/-- Settles O50: the image is made of what the lines give. -/
theorem loaderSkipsBlankAndCommentLines : Obligations.LoaderSkipsBlankAndCommentLines := by
  intro lines
  rw [loadLines, parseLines_filter, ← loadLines]

/-- A byte's eight base-2 digits, most significant first (R9, R184). -/
def byteDigits (b : Byte) : List Char := (List.range 8).map fun k => if b.getLsbD (7 - k) then '1' else '0'

/-- One more digit doubles a literal's value and is added to it. -/
theorem binaryValue_concat {digits : List Char} {v : Nat} (h : binaryValue digits = some v) (d : Bool) :
    binaryValue (digits ++ [if d then '1' else '0']) = some (2 * v + d.toNat) := by
  unfold binaryValue at h ⊢
  rw [List.foldlM_append, h]
  cases d <;> rfl

/-- A byte's first `k` digits are worth what is left of it without its `8 - k` low bits. -/
theorem binaryValue_first_digits (b : Byte) {k : Nat} (hk : k ≤ 8) :
    binaryValue ((List.range k).map fun j => if b.getLsbD (7 - j) then '1' else '0') =
      some (b.toNat / 2 ^ (8 - k)) := by
  induction k with
  | zero => exact congrArg some (Nat.div_eq_of_lt b.isLt).symm
  | succ k ih =>
    have hbefore := ih (Nat.le_of_succ_le hk)
    rw [show 8 - k = (7 - k) + 1 by omega, Nat.pow_succ, ← Nat.div_div_eq_div_mul] at hbefore
    rw [List.range_succ, List.map_append, List.map_singleton, binaryValue_concat hbefore, BitVec.getLsbD,
      Nat.toNat_testBit, Nat.div_add_mod, show 8 - (k + 1) = 7 - k by omega]

/-- A byte's digits are worth the byte. -/
theorem binaryValue_byteDigits (b : Byte) : binaryValue (byteDigits b) = some b.toNat := by
  simpa [byteDigits] using binaryValue_first_digits b le_rfl

/-- A byte's digits are `0` and `1`. -/
theorem eq_of_mem_byteDigits {b : Byte} {c : Char} (h : c ∈ byteDigits b) : c = '0' ∨ c = '1' := by
  obtain ⟨k, -, rfl⟩ := List.mem_map.1 h
  split <;> simp

/-- What stands before the first `#` of a line is what is read of it (R184 step 1). -/
theorem stripComment_append {text : List Char} (h : ∀ c ∈ text, c ≠ '#') (comment : List Char) :
    stripComment (text ++ '#' :: comment) = text := by
  rw [stripComment, List.takeWhile_append_of_pos fun c hc => by simpa using h c hc]
  simp

/-- Nothing is trimmed off before a text with no white space. -/
theorem dropWhile_isWhitespace_append {text : List Char} (hne : text ≠ []) (h : ∀ c ∈ text, ¬c.isWhitespace)
    (rest : List Char) : (text ++ rest).dropWhile Char.isWhitespace = text ++ rest := by
  cases text with
  | nil => exact absurd rfl hne
  | cons c text => exact List.dropWhile_cons_of_neg (h c List.mem_cons_self)

/-- A space after a text with no white space is trimmed off (R184 step 2). -/
theorem trimLine_append_space {text : List Char} (hne : text ≠ []) (h : ∀ c ∈ text, ¬c.isWhitespace) :
    trimLine (text ++ [' ']) = text := by
  have hend : text.reverse.dropWhile Char.isWhitespace = text.reverse := by
    simpa using dropWhile_isWhitespace_append (text := text.reverse) (by simpa using hne) (by simpa using h) []
  rw [trimLine, dropWhile_isWhitespace_append hne h, List.reverse_concat, List.dropWhile_cons_of_pos (by decide), hend,
    List.reverse_reverse]

/-- A line of a byte's digits, a space and a comment gives the byte (R82, R184). -/
theorem parseLine_byteDigits (b : Byte) (comment : List Char) :
    parseLine (byteDigits b ++ [' ', '#'] ++ comment) = .ok (some b) := by
  have hne : byteDigits b ≠ [] := List.cons_ne_nil _ _
  have hspace : ∀ c ∈ byteDigits b, ¬c.isWhitespace := fun c hc => by
    obtain rfl | rfl := eq_of_mem_byteDigits hc <;> decide
  have hmark : ∀ c ∈ byteDigits b ++ [' '], c ≠ '#' := fun c hc => by
    obtain hc | hc := List.mem_append.1 hc
    · obtain rfl | rfl := eq_of_mem_byteDigits hc <;> decide
    · rw [List.mem_singleton.1 hc]
      decide
  have hline : byteDigits b ++ [' ', '#'] ++ comment = (byteDigits b ++ [' ']) ++ '#' :: comment := by simp
  have htext : trimLine (stripComment (byteDigits b ++ [' ', '#'] ++ comment)) = byteDigits b := by
    rw [hline, stripComment_append hmark, trimLine_append_space hne hspace]
  rw [parseLine_eq_ok, htext]
  exact .inr ⟨hne, b.toNat, binaryValue_byteDigits b, by rw [trunc8_toNat]⟩

/-- The lines written of bytes give those bytes, in order (R183). -/
theorem parseLines_byteDigits (image : List (Byte × List Char)) :
    parseLines (image.map fun p => byteDigits p.1 ++ [' ', '#'] ++ p.2) = .ok (image.map Prod.fst) := by
  induction image with
  | nil => rfl
  | cons p image ih => exact parseLines_cons_eq_ok.2 ⟨_, _, parseLine_byteDigits p.1 p.2, ih, rfl⟩

/-- Settles O51: the lines give the bytes, and those are no more than memory holds. -/
theorem loaderReadsBackWrittenBytes : Obligations.LoaderReadsBackWrittenBytes :=
  fun image hfits => loadLines_eq_ok.2 ⟨parseLines_byteDigits image, by rwa [List.length_map]⟩

end Sys2Proof.Machine
